-- ==== Sys2Proof/Word.lean ====
section
/-! DEFINITION. The words the block computes on: bytes of the buffer space and unsigned 64-bit words (R8, R11, R40). -/

namespace Sys2Proof

/-- A byte of the buffer space (R40: "Each byte is 8 bits"). -/
abbrev Byte := BitVec 8

/-- The u64 of the spec: every operand, constant, seed, length and result (R8). The operators of R12
are `BitVec`'s own: `+`, `-`, `*` modulo 2^64, `^^^`, `|||`, `&&&`, the logical `>>>`, and `<<<`. -/
abbrev Word := BitVec 64

/-- `zext_64(v)` (R12): zero extension of a narrower value to 64 bits. -/
abbrev zext64 {w : Nat} (v : BitVec w) : Word := v.setWidth 64

/-- The law R9 puts on a mixing constant: `k mod 2 = 1`, and nothing more. -/
abbrev IsOdd (k : Word) : Prop := k.toNat % 2 = 1

end Sys2Proof
end

