-- ==== Sys2Proof/Syntax.lean ====
section
/-! DEFINITION. The abstract syntax: the twelve commands (R64), the register names (R20), and the host operations a
program is a sequence of (R69). -/

namespace Sys2Proof

/-- The commands of the opcode map (R64), one constructor per row of `spec/opcode_table.json`. A command
word carries no operand (R61): all operands come from the operand registers (R62). -/
inductive Instr where
  /-- `ROTL` (R81): rotate left by a dynamic count. -/
  | rotl
  /-- `RD8` (R93): read one byte. -/
  | rd8
  /-- `RD16` (R94): read a 16-bit little-endian word. -/
  | rd16
  /-- `RD32` (R95): read a 32-bit little-endian word. -/
  | rd32
  /-- `RD64` (R96): read a 64-bit little-endian word. -/
  | rd64
  /-- `MIX` (R101): the avalanche finalizer. -/
  | mix
  /-- `MIXS` (R111): the single-word stream mixer. -/
  | mixs
  /-- `MIXB` (R116): the bulk stream mixer. -/
  | mixb
  /-- `PREMIX` (R161): the seed pre-mix. -/
  | premix
  /-- `HASHI` (R130): the driver with the seed as given. -/
  | hashi
  /-- `HASH` (R162): the driver with the default seed. -/
  | hash
  /-- `HASHS` (R163): the driver with the pre-mixed caller seed. -/
  | hashs
deriving DecidableEq, Repr

/-- The five operand registers `OPA` to `OPE` (R20, R21). The same names select a latch `LA` to `LE` (R33). -/
inductive OpReg where
  | opa
  | opb
  | opc
  | opd
  | ope
deriving DecidableEq, Repr

/-- The host-visible register names (R20), with the reserved indices 8 to 15 as `reserved 0` to `reserved 7`. -/
inductive Reg where
  | cmd
  | status
  | operand (r : OpReg)
  | y
  | reserved (k : Fin 8)
deriving DecidableEq, Repr

/-- A run of buffer byte addresses `base, base+1, ..., base+size-1`, a piece of `R_READABLE` (R41). -/
structure Region where
  base : Nat
  size : Nat
deriving DecidableEq, Repr

/-- One host operation. The first five are the primitive operations of R69. `byte` is a single host write of the buffer
space, which R49 allows at any time outside `R_READABLE` (log entry 10). `readable` states the launch
parameter `R_READABLE` of the commands that follow (R41), `seq` is a moment in which the host does
nothing and the sequencer may take a step (R18), and `rdIfDone` is the last line of a
pseudo-instruction's expansion, "only if STATUS.DONE = 1" (R69). -/
inductive HostOp where
  /-- `WR <reg>, <value>`: a host register write; a write of `CMD` is an issue (R67). -/
  | wr (r : Reg) (v : Word)
  /-- `RD <reg>`: a host register read. -/
  | rd (r : Reg)
  /-- `WAIT`: read `STATUS` until `BUSY = 0`. -/
  | wait
  /-- `BYTES <addr>: <b0> <b1> ...`: host writes of consecutive buffer bytes, only while `BUSY = 0`. -/
  | bytes (addr : Nat) (bs : List Byte)
  /-- `RESET`: the external reset event (R190). -/
  | reset
  /-- A host write of one buffer byte (R40, R49). -/
  | byte (addr : Nat) (b : Byte)
  /-- The host's guarantee `R_READABLE` for the commands issued from here on (R41). -/
  | readable (regions : List Region)
  /-- The host does nothing; the sequencer takes its step. -/
  | seq
  /-- `RD Y` only if `STATUS.DONE = 1`. -/
  | rdIfDone
deriving DecidableEq, Repr

end Sys2Proof
end

