-- ==== Sys2Proof/Config.lean ====
section
/-! DEFINITION. The block's parameters (R9, R28): the five open odd constants, the address width, the fixed default
seed, and the free values the spec leaves open. -/

namespace Sys2Proof

/-- The parameters of a block (R9): the four bulk constants, the shared constant, and the address width.
A state carries its parameters as data (`State.cfg`) and no step writes them (R10), so a statement about
every state is a statement about every choice of them. -/
structure Config where
  /-- `K_C`, the shared multiplicative constant. -/
  kC : Word
  /-- `K_Q`, a constant of the bulk mixer. -/
  kQ : Word
  /-- `K_R`, a constant of the bulk mixer. -/
  kR : Word
  /-- `K_S`, a constant of the bulk mixer. -/
  kS : Word
  /-- `K_T`, a constant of the bulk mixer. -/
  kT : Word
  /-- `ADDR_W`, the width of a byte address in the buffer space. -/
  addrW : Nat
deriving DecidableEq, Repr

/-- The law of R9: every one of the five constants is odd. The spec gives them no other law. -/
abbrev Config.Lawful (c : Config) : Prop :=
  IsOdd c.kC ∧ IsOdd c.kQ ∧ IsOdd c.kR ∧ IsOdd c.kS ∧ IsOdd c.kT

/-- `K_SEED`, the documented default seed constant (R9, R28). -/
def Config.kSeed : Word := 0x3C79AC492BA7B653

/-- FREE VALUE (log entry 3). The upper 63 bits of the open constants of a block: no source gives them (R9). -/
opaque Config.freeHalf : Nat → BitVec 63

/-- FREE VALUE (log entry 6). The byte that stands in the buffer space at an address no host operation of
the run has written: no source gives it (R32: "The host owns them"). -/
opaque Config.unplacedByte : Nat → Byte

/-- FREE VALUE (log entry 2). The bits that stand in a register while it holds no value (R20, R191: neither zero nor
any single fixed value): `OPA` to `OPE` are numbers 0 to 4, `LA` to `LE` 5 to 9, `Y` 10, `H` 11, `N` 12, `P` 13. -/
opaque Config.contents : Nat → Word

/-- An odd word from its upper 63 bits: every odd word is one of these. -/
def Config.oddWord (upper : BitVec 63) : Word := zext64 upper <<< 1 ||| 1

/-- The parameters of the block at reset: the five constants free but odd, `ADDR_W` at its default 64 (R9). -/
def Config.powerOn : Config where
  kC := Config.oddWord (Config.freeHalf 0)
  kQ := Config.oddWord (Config.freeHalf 1)
  kR := Config.oddWord (Config.freeHalf 2)
  kS := Config.oddWord (Config.freeHalf 3)
  kT := Config.oddWord (Config.freeHalf 4)
  addrW := 64

end Sys2Proof
end

