-- ==== Sys2Proof/WellFormed.lean ====
section
/-! DEFINITION. What a well-formed command word (R61, R65), command (R61) and host operation (R20, R22, R40, R69) is. -/

namespace Sys2Proof

/-- An opcode value that R65 does not list as reserved. It is written from the illegal ranges of R65,
not from the opcode map of R64 that the decoder follows. -/
def opcodeAssigned (op : BitVec 8) : Bool :=
  let n := op.toNat
  !(n == 0x00 || (0x06 ≤ n && n ≤ 0x0F) || (0x14 ≤ n && n ≤ 0x1F) || (0x23 ≤ n && n ≤ 0xFF))

/-- A `CMD` word that R65 does not call illegal: `RSVD = CMD[63:8]` is zero and `OP = CMD[7:0]` is assigned. -/
def commandWordWellFormed (w : Word) : Bool :=
  w.extractLsb' 8 56 == 0 && opcodeAssigned (w.extractLsb' 0 8)

/-- Every command is well formed: a command word has no operand field that could be out of range (R61). -/
def Instr.wellFormed (_ : Instr) : Bool := true

/-- The registers a host may read (R20, R22). -/
def Reg.hostReadable : Reg → Bool
  | .cmd => false
  | .status => true
  | .operand _ => true
  | .y => true
  | .reserved _ => false

/-- The registers a host may write (R20, R22). -/
def Reg.hostWritable : Reg → Bool
  | .cmd => true
  | .status => false
  | .operand _ => true
  | .y => false
  | .reserved _ => false

/-- A run of addresses that lies inside the buffer space `0 .. 2^ADDR_W - 1` (R40). -/
def Region.inSpace (c : Config) (g : Region) : Bool := g.base + g.size ≤ 2 ^ c.addrW

/-- A host operation that stays within the registers' access rights (R20, R22), the legal command
words (R65) and the buffer space (R40). -/
def HostOp.wellFormed (c : Config) : HostOp → Bool
  | .wr .cmd w => commandWordWellFormed w
  | .wr r _ => r.hostWritable
  | .rd r => r.hostReadable
  | .wait => true
  | .bytes addr bs => Region.inSpace c ⟨addr, bs.length⟩
  | .reset => true
  | .byte addr _ => Region.inSpace c ⟨addr, 1⟩
  | .readable gs => gs.all (Region.inSpace c)
  | .seq => true
  | .rdIfDone => true

end Sys2Proof
end

