-- ==== Sys2Proof/Decode.lean ====
section
/-! DEFINITION. The decoder of command words and register indices, total and rejecting by name (R61, R64, R65, R66, R20),
and after it the encoder. -/

namespace Sys2Proof

/-- Why a `CMD` word is illegal (R65). Both causes raise the one hardware fault `ILLEGAL_OP`. -/
inductive DecodeError where
  /-- `CMD[63:8] ≠ 0`. -/
  | reservedBits
  /-- `CMD[7:0]` is not in the opcode map. -/
  | reservedOpcode
deriving DecidableEq, Repr

/-- The field `OP = CMD[7:0]` (R61). -/
def fieldOp (w : Word) : BitVec 8 := w.extractLsb' 0 8

/-- The field `RSVD = CMD[63:8]` (R61). -/
def fieldRsvd (w : Word) : BitVec 56 := w.extractLsb' 8 56

/-- The opcode map of R64, row by row. -/
def opcodeMap : List (BitVec 8 × Instr) :=
  [(0x01, .rotl), (0x02, .rd8), (0x03, .rd16), (0x04, .rd32), (0x05, .rd64),
   (0x10, .mix), (0x11, .mixs), (0x12, .mixb), (0x13, .premix),
   (0x20, .hashi), (0x21, .hash), (0x22, .hashs)]

/-- The decoder (R66): every 64-bit `CMD` value is one of the twelve commands or is rejected by name. -/
def decode (w : Word) : Except DecodeError Instr :=
  if fieldRsvd w ≠ 0 then .error .reservedBits
  else match opcodeMap.lookup (fieldOp w) with
    | some i => .ok i
    | none => .error .reservedOpcode

/-- The instruction the decoder reads from a table word of `nbits` bits (`CMD64` rows have 64). -/
def decodeTableWord (nbits w : Nat) : Option Instr :=
  match decode (BitVec.ofNat 64 (w % 2 ^ nbits)) with
  | .ok i => some i
  | .error _ => none

/-- The register a 4-bit register index selects (R20); 8 to 15 are reserved. -/
def Reg.ofIndex (k : Fin 16) : Reg :=
  match k.val with
  | 0 => .cmd
  | 1 => .status
  | 2 => .operand .opa
  | 3 => .operand .opb
  | 4 => .operand .opc
  | 5 => .operand .opd
  | 6 => .operand .ope
  | 7 => .y
  | n => .reserved (Fin.ofNat 8 (n - 8))

/-- The value of `OP` that each command's own rule gives (R81, R93 to R96, R101, R111, R116, R161, R130, R162, R163). -/
def opcode : Instr → BitVec 8
  | .rotl => 0x01
  | .rd8 => 0x02
  | .rd16 => 0x03
  | .rd32 => 0x04
  | .rd64 => 0x05
  | .mix => 0x10
  | .mixs => 0x11
  | .mixb => 0x12
  | .premix => 0x13
  | .hashi => 0x20
  | .hash => 0x21
  | .hashs => 0x22

/-- The encoder: the `CMD` word of a command is `zext_64(OP)` (R69). -/
def encode (i : Instr) : Word := zext64 (opcode i)

/-- The register index of a register name (R20). -/
def Reg.index : Reg → Fin 16
  | .cmd => 0
  | .status => 1
  | .operand .opa => 2
  | .operand .opb => 3
  | .operand .opc => 4
  | .operand .opd => 5
  | .operand .ope => 6
  | .y => 7
  | .reserved k => Fin.ofNat 16 (8 + k.val)

end Sys2Proof
end

