-- ==== Sys2Proof/Machine/State.lean ====
section
/-! DEFINITION. The state of one block instance with the buffer space and the host's program, its reset value, and the
reasons a step can stop. -/

namespace Sys2Proof.Machine

/-- `STAGE`, the block's place in a computation (R27). It takes one of eight values. -/
inductive Stage where
  /-- No command since reset. -/
  | idle
  /-- A single-step command between issue and completion. -/
  | sExec
  /-- Driver, 64-byte loop. -/
  | sBlock
  /-- Driver, 8-byte loop. -/
  | sWord
  /-- Driver, tail. -/
  | sTail
  /-- Driver, finalize. -/
  | sFinal
  /-- The last command completed. -/
  | done
  /-- Stopped on a hardware fault until reset. -/
  | fault
deriving DecidableEq, Repr

/-- The recorded cause of a hardware fault, `STATUS.FCAUSE` (R171). The codes 3 to 15 are never produced. -/
inductive FCause where
  /-- `NONE`, code 0. -/
  | none
  /-- `ILLEGAL_OP`, code 1. -/
  | illegalOp
  /-- `BUSY_ISSUE`, code 2. -/
  | busyIssue
deriving DecidableEq, Repr

/-- The model faults of R173, the entries of `FLOG`. -/
inductive ModelFault where
  /-- `UnwrittenOperand(r)`. -/
  | unwrittenOperand (r : OpReg)
  /-- `BufferOverread(a)`. -/
  | bufferOverread (a : Nat)
  /-- `ResultNotValid`. -/
  | resultNotValid
  /-- `BadRegAccess(r)`. -/
  | badRegAccess (r : Reg)
deriving DecidableEq, Repr

/-- What a register holds. Its bits are always there. "No value" means that they are "nothing a model may rely on"
(R20, R191), so the two cases are kept apart. -/
inductive Held (α : Type) where
  /-- A value that was written since reset and is valid. -/
  | known (v : α)
  /-- No value (R20, R32): unspecified bits. -/
  | noValue (bits : α)
deriving DecidableEq, Repr

/-- The register holds a value. -/
def Held.isKnown {α : Type} : Held α → Bool
  | .known _ => true
  | .noValue _ => false

/-- What a read of the register returns: its value, or no value (R191). -/
def Held.toOption {α : Type} : Held α → Option α
  | .known v => some v
  | .noValue _ => none

/-- Five 64-bit registers: the operand registers `OPA` to `OPE` (R20) or the operand latches `LA` to `LE` (R33). -/
structure OperandFile where
  a : Held Word
  b : Held Word
  c : Held Word
  d : Held Word
  e : Held Word
deriving DecidableEq, Repr

/-- Register number `k` holds no value: its bits are a free value (log entry 2). -/
def Held.unspecified (k : Nat) : Held Word := .noValue (Config.contents k)

/-- Five registers without a value, numbered from `k`. -/
def OperandFile.noValue (k : Nat) : OperandFile :=
  ⟨.unspecified k, .unspecified (k + 1), .unspecified (k + 2), .unspecified (k + 3), .unspecified (k + 4)⟩

/-- `OPA` to `OPE` hold no value (R32, R190). -/
def noOperands : OperandFile := .noValue 0

/-- `LA` to `LE` hold no value (R32, R172, R190). -/
def noLatches : OperandFile := .noValue 5

/-- `Y` holds no value (R32, R67, R172, R190). -/
def noY : Held Word := .unspecified 10

/-- `H` holds no value (R25, R32, R137, R172, R190). -/
def noH : Held Word := .unspecified 11

/-- `N` holds no value (R26, R32, R137, R172, R190). -/
def noN : Held Word := .unspecified 12

/-- `P` holds no value (R26, R32, R137, R172, R190). -/
def noP : Held Nat := .noValue (Config.contents 13).toNat

/-- The buffer space's listed bytes: (address, byte) pairs, addresses strictly rising. An unlisted
address holds no byte that the run has placed. -/
abbrev Memory := List Host.Cell

/-- What a host register read returned: the register, and its value or no value (R69, R173). -/
structure HostRead where
  reg : Reg
  value : Option Word
deriving DecidableEq, Repr

/-- The state. The host-visible register `STATUS` is a function of `stage` and `fcause` (R23), and `CMD`
holds nothing (R24). -/
structure State where
  /-- The block's parameters (R9, R28). No step writes them (R10). -/
  cfg : Config
  /-- `OPA` to `OPE` (R20, R21). -/
  ops : OperandFile
  /-- `Y`, the result of the last completed command (R20). -/
  y : Held Word
  /-- `STAGE` (R27). -/
  stage : Stage
  /-- The recorded fault cause (R171). -/
  fcause : FCause
  /-- `LA` to `LE` (R33). -/
  latches : OperandFile
  /-- The single-step command that is running. R67's `S_EXEC` step computes "the opcode's result", so the
  opcode is latched with the operands (log entry 7). -/
  running : Option Instr
  /-- `H`, the accumulator (R25). -/
  h : Held Word
  /-- `N`, the remaining length (R26). -/
  n : Held Word
  /-- `P`, the read position, a mathematical integer (R26, R43). -/
  p : Held Nat
  /-- `FLOG`, the set of recorded model faults (R31), oldest first, without repeats. -/
  flog : List ModelFault
  /-- The buffer space (R40). -/
  mem : Memory
  /-- `R_READABLE` of the commands issued now (R41). -/
  readable : List Region
  /-- The host operations still to come (R18, R69). -/
  program : List HostOp
  /-- What the host's register reads returned, newest first (R69). -/
  reads : List HostRead
deriving DecidableEq, Repr

/-- Why a step stops with a fault. -/
inductive Fault where
  /-- Raised by a sequencer step that finds a register without the value its stage needs. No state that
  meets `State.Inv` raises it (log entry 14). Safe: the model stops. -/
  | malformedState
  /-- Raised by a host write of a byte at or above `2^ADDR_W`: the buffer space has no such byte (R40).
  Safe: the model stops. -/
  | noSuchByte
  /-- Raised by `System.step` for an instance number at or above `N_INST` (R182). Safe: the model stops. -/
  | noSuchInstance
deriving DecidableEq, Repr

/-- Why the model has no step for an action. -/
inductive Refusal where
  /-- An instruction without a meaning. No arm of `exec` raises it now. Safe: the model stops. -/
  | notModelled (mnemonic : String)
  /-- Raised by `BYTES` while `BUSY = 1`, which R69 has "only while `BUSY = 0`", and by a host write of a byte of
  `R_READABLE` while `BUSY = 1`: "A model has no host step that writes such a byte" (R49, R195). Unsafe: a real host
  may do it (log entry 10). -/
  | bufferWriteWhileBusy
  /-- Raised by a change of `R_READABLE` while `BUSY = 1`: the set holds "for the whole command" (R41).
  Safe: it is a step of the model's own bookkeeping (log entry 5). -/
  | readableChangeWhileBusy
deriving DecidableEq, Repr

/-- What a step answers. -/
abbrev Out := Host.Outcome State Fault Refusal

/-- The state right after reset, at the start of a run (R32, R190): `STAGE = IDLE`, every register without a
value, `FLOG` empty, no byte placed, and no host operation pending. -/
def State.reset : State where
  cfg := Config.powerOn
  ops := noOperands
  y := noY
  stage := .idle
  fcause := .none
  latches := noLatches
  running := none
  h := noH
  n := noN
  p := noP
  flog := []
  mem := []
  readable := []
  program := []
  reads := []

end Sys2Proof.Machine
end

