-- ==== Sys2Proof/Machine/Flags.lean ====
section
/-! DEFINITION. The status flags as functions of `STAGE` and the recorded fault cause, and the `STATUS` word (R23, R27, R171). -/

namespace Sys2Proof.Machine

/-- `BUSY`: `STAGE` is one of `S_EXEC`, `S_BLOCK`, `S_WORD`, `S_TAIL`, `S_FINAL` (R23, R27). -/
def Stage.busy : Stage → Bool
  | .idle => false
  | .sExec => true
  | .sBlock => true
  | .sWord => true
  | .sTail => true
  | .sFinal => true
  | .done => false
  | .fault => false

/-- A driver stage (R27): the stages in which `H`, `N` and `P` hold values. -/
def Stage.driver : Stage → Bool
  | .idle => false
  | .sExec => false
  | .sBlock => true
  | .sWord => true
  | .sTail => true
  | .sFinal => true
  | .done => false
  | .fault => false

/-- The code of a fault cause (R171). -/
def FCause.code : FCause → BitVec 4
  | .none => 0
  | .illegalOp => 1
  | .busyIssue => 2

/-- `STATUS.BUSY`. -/
def busy (s : State) : Bool := s.stage.busy

/-- `STATUS.DONE`: the last command completed and `Y` holds its result (R23). -/
def done (s : State) : Bool := s.stage = .done

/-- `STATUS.FAULT`: the block stopped on a hardware fault (R23). -/
def faulted (s : State) : Bool := s.stage = .fault

/-- `STATUS.FCAUSE`: the cause of the fault when `FAULT = 1`, else 0 (R23). -/
def fcauseField (s : State) : BitVec 4 := if faulted s then s.fcause.code else 0

/-- The `STATUS` word (R23): `BUSY` in bit 0, `DONE` in bit 1, `FAULT` in bit 2, `FCAUSE` in bits 11:8,
and zero elsewhere. -/
def statusWord (s : State) : Word :=
  zext64 (BitVec.ofBool (busy s)) ||| zext64 (BitVec.ofBool (done s)) <<< 1 |||
    zext64 (BitVec.ofBool (faulted s)) <<< 2 ||| zext64 (fcauseField s) <<< 8

/-- A model fault after which the instance takes no further step (R173). -/
def ModelFault.sticks : ModelFault → Bool
  | .unwrittenOperand _ => true
  | .bufferOverread _ => true
  | .resultNotValid => false
  | .badRegAccess _ => false

/-- The instance is stuck: `FLOG` holds a model fault that stops it (R173). -/
def stuck (s : State) : Bool := s.flog.any ModelFault.sticks

end Sys2Proof.Machine
end

