-- ==== Sys2Proof/Machine/Operands.lean ====
section
/-! DEFINITION. The operands: the registers each command reads (R62), reading and writing an operand register or a latch
(R21, R33), latching at issue (R67), and the operand assembly of the rotate count and the reader address (R63). -/

namespace Sys2Proof.Machine

/-- The value a register of the file holds, if it holds one. -/
def OperandFile.get (f : OperandFile) : OpReg → Held Word
  | .opa => f.a
  | .opb => f.b
  | .opc => f.c
  | .opd => f.d
  | .ope => f.e

/-- The file with one register holding a value. -/
def OperandFile.set (f : OperandFile) (r : OpReg) (v : Word) : OperandFile :=
  match r with
  | .opa => { f with a := .known v }
  | .opb => { f with b := .known v }
  | .opc => { f with c := .known v }
  | .opd => { f with d := .known v }
  | .ope => { f with e := .known v }

/-- The operand registers each command reads, in the order `OPA` to `OPE` (R62). -/
def operandsRead : Instr → List OpReg
  | .rotl => [.opa, .opb]
  | .rd8 => [.opa, .opb]
  | .rd16 => [.opa, .opb]
  | .rd32 => [.opa, .opb]
  | .rd64 => [.opa, .opb]
  | .mix => [.opa]
  | .mixs => [.opa, .opb]
  | .mixb => [.opa, .opb, .opc, .opd, .ope]
  | .premix => [.opa]
  | .hashi => [.opa, .opb, .opc]
  | .hash => [.opa, .opb]
  | .hashs => [.opa, .opb, .opc]

/-- An operand register read at issue: its value, or the register itself when it holds no value (R67). -/
def need (s : State) (r : OpReg) : Except OpReg Word :=
  match s.ops.get r with
  | .known v => .ok v
  | .noValue _ => .error r

/-- Each listed operand register copied into its latch, in order (R67, R33); the latches of registers the
opcode does not read keep what they hold (log entry 13). The first register without a value is the answer
instead, if there is one. -/
def latchOperands (s : State) : List OpReg → OperandFile → Except OpReg OperandFile
  | [], f => .ok f
  | r :: rs, f =>
    match s.ops.get r with
    | .known v => latchOperands s rs (f.set r v)
    | .noValue _ => .error r

/-- Why an `S_EXEC` step gives no result. -/
inductive NoResult where
  /-- A byte of the read is not readable: the lowest such address (R42, R174). -/
  | overread (a : Nat)
  /-- A latch the opcode needs holds no value. No state that meets `State.Inv` has this. -/
  | noLatch
deriving DecidableEq, Repr

/-- A latch read by the `S_EXEC` step (R67: "`OPA` to `OPE` stand for the latched values `LA` to `LE`"). -/
def latched (s : State) (r : OpReg) : Except NoResult Word :=
  match s.latches.get r with
  | .known v => .ok v
  | .noValue _ => .error .noLatch

/-- The rotate count of `ROTL`: `OPB mod 64`, that is `OPB[5:0]` (R63). -/
def rotateCount (c : Word) : Nat := (c.extractLsb' 0 6).toNat

/-- The byte address of a reader: base and offset added as integers, with no wrap (R63, R43). -/
def readerAddress (base offset : Word) : Nat := base.toNat + offset.toNat

end Sys2Proof.Machine
end

