-- ==== Sys2Proof/Machine/Ops.lean ====
section
/-! DEFINITION. The operations the meanings share: the buffer space and its read primitive (R40 to R43), recording a
model fault (R173), taking a hardware fault (R172) and the reset that alone leaves it (R190), the issue of a command
(R67), and the completion of one. -/

namespace Sys2Proof.Machine

/-! ### The buffer space -/

/-- The canonical form of a memory: addresses strictly rising. An unlisted address reads as no byte, so no
entry can equal what an unlisted address reads as. -/
abbrev Memory.wf (m : Memory) : Prop := m.Pairwise (fun x z => x.1 < z.1)

/-- The byte listed at an address. An unlisted address reads as no byte. -/
def Memory.read : Memory → Nat → Option Byte
  | [], _ => none
  | (a, b) :: rest, x => if a = x then some b else Memory.read rest x

/-- A byte written at an address. -/
def Memory.write : Memory → Nat → Byte → Memory
  | [], x, v => [(x, v)]
  | (a, b) :: rest, x, v =>
    if x < a then (x, v) :: (a, b) :: rest
    else if x = a then (x, v) :: rest
    else (a, b) :: Memory.write rest x v

/-- Consecutive bytes written from an address upward (R69, `BYTES`). -/
def Memory.writeBytes (m : Memory) (addr : Nat) : List Byte → Memory
  | [] => m
  | b :: bs => Memory.writeBytes (Memory.write m addr b) (addr + 1) bs

/-- `byte[a]` (R42). A byte the run has not placed is a free value (log entry 6). -/
def byteAt (s : State) (a : Nat) : Byte := (Memory.read s.mem a).getD (Config.unplacedByte a)

/-- An address of a region. -/
def Region.holds (g : Region) (a : Nat) : Bool := g.base ≤ a && a < g.base + g.size

/-- `a ∈ R_READABLE` (R41). -/
def inReadable (s : State) (a : Nat) : Bool := s.readable.any (Region.holds · a)

/-- An address of the buffer space: below `2^ADDR_W` (R40). -/
def inSpace (s : State) (a : Nat) : Bool := a < 2 ^ s.cfg.addrW

/-- The admission test of a byte read, the negation of R42's `a >= 2^ADDR_W or a not in R_READABLE`. -/
def readableByte (s : State) (a : Nat) : Bool := inSpace s a && inReadable s a

/-- The lowest of the `n` addresses from `a` upward that may not be read, if there is one (R174). -/
def firstUnreadable (s : State) (a : Nat) : Nat → Option Nat
  | 0 => none
  | n + 1 => if readableByte s a then firstUnreadable s (a + 1) n else some a

/-- The `n` bytes from `a` upward as a little-endian number, zero-extended (R42, R45):
`byte[a] | byte[a+1] << 8 | ... | byte[a+n-1] << 8*(n-1)`. -/
def readLe (byte : Nat → Byte) (a : Nat) : Nat → Word
  | 0 => 0
  | n + 1 => readLe byte a n ||| zext64 (byte (a + n)) <<< (8 * n)

/-- A value computed from the `n` bytes at `a`, admitted only if every one of them may be read. R174:
"every read is checked before any state changes", and the lowest unreadable address is reported. -/
def checkedRead (s : State) (a n : Nat) (v : Word) : Except Nat Word :=
  match firstUnreadable s a n with
  | some x => .error x
  | none => .ok v

/-- `MemRead(addr, n)` (R42): the value, or the lowest address that may not be read. -/
def memRead (s : State) (addr n : Nat) : Except Nat Word :=
  checkedRead s addr n (readLe (byteAt s) addr n)

/-! ### Faults and reset -/

/-- `FLOG <- FLOG ∪ {f}` (R31): a set, so an entry it holds is not added again. -/
def flogAdd (l : List ModelFault) (f : ModelFault) : List ModelFault :=
  if f ∈ l then l else l ++ [f]

/-- A model fault recorded; nothing else changes (R173). -/
def recordFault (f : ModelFault) (s : State) : State := { s with flog := flogAdd s.flog f }

/-- Taking a hardware fault (R172): `STAGE <- FAULT`, the cause recorded, and `Y`, `H`, `N`, `P`,
`LA` to `LE` without a value. The running command is abandoned. -/
def raiseFault (k : FCause) (s : State) : State :=
  { s with
    stage := .fault
    fcause := k
    y := noY
    h := noH
    n := noN
    p := noP
    latches := noLatches
    running := none }

/-- Reset, the only event that leaves `FAULT` (R175, R190). The parameters, the buffer bytes and `FLOG` are
unchanged (R32). -/
def applyReset (s : State) : State :=
  { s with
    stage := .idle
    fcause := .none
    ops := noOperands
    latches := noLatches
    running := none
    y := noY
    h := noH
    n := noN
    p := noP }

/-! ### Issue and completion -/

/-- The first checks of a `CMD` write, in the order of R174: a busy stage raises `BUSY_ISSUE`; in `FAULT`
the write has no effect; only in `IDLE` or `DONE` does `accept` answer. -/
def issueGate (accept : State → State) (s : State) : Out :=
  if busy s then .next (raiseFault .busyIssue s)
  else if faulted s then .next s
  else .next (accept s)

/-- The end of an issue (R67): the state the command starts in, or the model fault of its first operand
register without a value, with nothing else changed. -/
def startOrRecord (s : State) : Except OpReg State → State
  | .ok t => t
  | .error r => recordFault (.unwrittenOperand r) s

/-- The start of a single-step command (R67): `Y` has no value, the operands are latched, `STAGE <- S_EXEC`. -/
def startSingle (i : Instr) (f : OperandFile) (s : State) : State :=
  { s with y := noY, latches := f, running := some i, stage := .sExec }

/-- The start of a driver command: `Y` has no value (R67), then `init(base, len, seed0)` (R131). -/
def startDriver (base len seed0 : Word) (s : State) : State :=
  { s with
    y := noY
    h := .known (len ^^^ seed0)
    n := .known len
    p := .known base.toNat
    stage := .sBlock }

/-- The issue of a single-step command (R67). -/
def issueSingle (i : Instr) (s : State) : Out :=
  issueGate (fun s => startOrRecord s ((latchOperands s (operandsRead i) s.latches).map (startSingle i · s))) s

/-- The issue of a driver command (R67, R131), given how it reads its operands and makes its seed. -/
def issueDriver (start : State → Except OpReg State) (s : State) : Out :=
  issueGate (fun s => startOrRecord s (start s)) s

/-- The issue of an illegal word (R65, R67): `ILLEGAL_OP`, after the checks every `CMD` write meets. -/
def issueIllegal (s : State) : Out := issueGate (raiseFault .illegalOp) s

/-- The end of an `S_EXEC` step (R67): `Y <- result`, `STAGE <- DONE`. -/
def completeSingle (v : Word) (s : State) : State :=
  { s with y := .known v, running := none, stage := .done }

/-- The end of an `S_FINAL` step (R137): `Y <- mix(H)`, `H`, `N`, `P` without a value, `STAGE <- DONE`. -/
def completeDriver (v : Word) (s : State) : State :=
  { s with y := .known v, h := noH, n := noN, p := noP, stage := .done }

end Sys2Proof.Machine
end

