-- ==== Sys2Proof/Machine/Rotate.lean ====
section
/-! DEFINITION. The rotate-left primitive and `ROTL` (R80, R81). -/

namespace Sys2Proof.Machine

/-- `rotl64(n, c)` (R80): the count is reduced first, so no shift by 64 or more happens. -/
def rotl64 (n : Word) (c : Nat) : Word :=
  let k := c % 64
  if k = 0 then n else (n <<< k) ||| (n >>> (64 - k))

/-- The issue of `ROTL` (R81, R67). -/
def execRotl (s : State) : Out := issueSingle .rotl s

/-- The `S_EXEC` step of `ROTL` (R81): `Y <- rotl64(OPA, OPB)`. -/
def resultRotl (s : State) : Except NoResult Word := do
  let n ← latched s .opa
  let c ← latched s .opb
  pure (rotl64 n (rotateCount c))

end Sys2Proof.Machine
end

