-- ==== Sys2Proof/Machine/Finalizer.lean ====
section
/-! DEFINITION. The avalanche finalizer and `MIX` (R100 to R103). -/

namespace Sys2Proof.Machine

/-- The first stage of `mix` (R103): `f(x) = x ^ rotl64(x,23) ^ rotl64(x,43)`. -/
def mixFirst (x : Word) : Word := x ^^^ rotl64 x 23 ^^^ rotl64 x 43

/-- The last stage of `mix` (R103): `g(z) = z ^ rotl64(z,11) ^ rotl64(z,50)`. -/
def mixLast (z : Word) : Word := z ^^^ rotl64 z 11 ^^^ rotl64 z 50

/-- `mix(x)` (R100). -/
def mix (c : Config) (x : Word) : Word :=
  let x := mixFirst x
  let x := x * c.kC
  mixLast x

/-- The issue of `MIX` (R101, R67). -/
def execMix (s : State) : Out := issueSingle .mix s

/-- The `S_EXEC` step of `MIX` (R101): `Y <- mix(OPA)`. -/
def resultMix (s : State) : Except NoResult Word := do
  let x ← latched s .opa
  pure (mix s.cfg x)

end Sys2Proof.Machine
end

