-- ==== Sys2Proof/Machine/StreamMixers.lean ====
section
/-! DEFINITION. The single-word and the bulk stream mixer, `MIXS` and `MIXB` (R110, R111, R115, R116). -/

namespace Sys2Proof.Machine

/-- `mix_stream(h, x)` (R110). -/
def mixStream (c : Config) (h x : Word) : Word :=
  let x := x * c.kC
  let x := x ^^^ (x >>> 39)
  let h := h + x * c.kC
  let h := h * c.kC
  h

/-- `mix_stream_bulk(h, a, b, c, d)` (R115). -/
def mixStreamBulk (k : Config) (h a b c d : Word) : Word :=
  h + (rotl64 a 29 - c) * k.kQ
    + (rotl64 b 29 - d) * k.kR
    + (rotl64 c 29 - b) * k.kS
    + (rotl64 d 29 - a) * k.kT

/-- The issue of `MIXS` (R111, R67). -/
def execMixs (s : State) : Out := issueSingle .mixs s

/-- The `S_EXEC` step of `MIXS` (R111): `Y <- mix_stream(OPA, OPB)`. -/
def resultMixs (s : State) : Except NoResult Word := do
  let h ← latched s .opa
  let x ← latched s .opb
  pure (mixStream s.cfg h x)

/-- The issue of `MIXB` (R116, R67). -/
def execMixb (s : State) : Out := issueSingle .mixb s

/-- The `S_EXEC` step of `MIXB` (R116): `Y <- mix_stream_bulk(OPA, OPB, OPC, OPD, OPE)`. -/
def resultMixb (s : State) : Except NoResult Word := do
  let h ← latched s .opa
  let a ← latched s .opb
  let b ← latched s .opc
  let c ← latched s .opd
  let d ← latched s .ope
  pure (mixStreamBulk s.cfg h a b c d)

end Sys2Proof.Machine
end

