-- ==== Sys2Proof/Machine/Driver.lean ====
section
/-! DEFINITION. The core driver: `HASHI` and the stage steps `S_BLOCK`, `S_WORD`, `S_TAIL`, `S_FINAL` that `HASHI`,
`HASH` and `HASHS` run through (R130 to R137). -/

namespace Sys2Proof.Machine

/-- The issue of `HASHI` (R130, R131): `init(OPA, OPB, OPC)`, the seed used as given. -/
def execHashi (s : State) : Out :=
  issueDriver (fun s => do
    let base ← need s .opa
    let len ← need s .opb
    let seed ← need s .opc
    pure (startDriver base len seed s)) s

/-- The new `H` of a block step (R134): eight little-endian words at offsets 0, 8, ..., 56, the first half
mixed into `H * K_C`, the second half into that result rotated by 37. -/
def blockMix (c : Config) (byte : Nat → Byte) (p : Nat) (h : Word) : Word :=
  let w := fun i => readLe byte (p + 8 * i) 8
  let h1 := mixStreamBulk c (h * c.kC) (w 0) (w 1) (w 2) (w 3)
  mixStreamBulk c (rotl64 h1 37) (w 4) (w 5) (w 6) (w 7)

/-- The composed value of a tail of `n` bytes at `p`, row by row (R136). Rows exist for 1 to 7. -/
def tailValue (byte : Nat → Byte) (p : Nat) : Nat → Word
  | 1 => readLe byte p 1
  | 2 => readLe byte p 2
  | 3 => readLe byte p 2 ||| readLe byte (p + 2) 1 <<< 16
  | 4 => readLe byte p 4
  | 5 => readLe byte p 4 ||| readLe byte (p + 4) 1 <<< 32
  | 6 => readLe byte p 4 ||| readLe byte (p + 4) 2 <<< 32
  | 7 => readLe byte p 4 ||| readLe byte (p + 4) 2 <<< 32 ||| readLe byte (p + 6) 1 <<< 48
  | _ => 0

/-- The end of a step that reads: the new state, or the overread recorded with no other change (R174). -/
def readOrRecord (s : State) (next : Word → State) : Except Nat Word → State
  | .ok v => next v
  | .error a => recordFault (.bufferOverread a) s

/-- The `S_BLOCK` step (R133, R134). -/
def blockStep (h n : Word) (p : Nat) (s : State) : Out :=
  if 64 ≤ n.toNat then
    .next (readOrRecord s (fun v => { s with h := .known v, p := .known (p + 64), n := .known (n - 64) })
      (checkedRead s p 64 (blockMix s.cfg (byteAt s) p h)))
  else .next { s with stage := .sWord }

/-- The `S_WORD` step (R135). -/
def wordStep (h n : Word) (p : Nat) (s : State) : Out :=
  if 8 ≤ n.toNat then
    .next (readOrRecord s (fun w => { s with h := .known (mixStream s.cfg h w), p := .known (p + 8), n := .known (n - 8) })
      (memRead s p 8))
  else .next { s with stage := .sTail }

/-- The `S_TAIL` step (R136). With `N = 0`, `mix_stream` is not called and `H` is unchanged. A tail of more than
7 bytes stands in no state that a run reaches (log entry 14). -/
def tailStep (h n : Word) (p : Nat) (s : State) : Out :=
  if n.toNat = 0 then .next { s with n := .known 0, stage := .sFinal }
  else if n.toNat < 8 then
    .next (readOrRecord s (fun v => { s with h := .known (mixStream s.cfg h v), n := .known 0, stage := .sFinal })
      (checkedRead s p n.toNat (tailValue (byteAt s) p n.toNat)))
  else .fault .malformedState

/-- The `S_FINAL` step (R137). -/
def finalStep (h _n : Word) (_p : Nat) (s : State) : Out := .next (completeDriver (mix s.cfg h) s)

/-- A driver stage's step on the values of `H`, `N` and `P`. A driver stage without them stands in no state that
a run reaches (log entry 14). -/
def driverStep (stageStep : Word → Word → Nat → State → Out) (s : State) : Out :=
  match s.h, s.n, s.p with
  | .known h, .known n, .known p => stageStep h n p s
  | _, _, _ => .fault .malformedState

end Sys2Proof.Machine
end

