-- ==== Sys2Proof/Machine/EntryPoints.lean ====
section
/-! DEFINITION. The seed pre-mix and `PREMIX`, and the two entry points of the driver, `HASH` and `HASHS`
(R160 to R163). -/

namespace Sys2Proof.Machine

/-- `premix(seed)` (R160). -/
def premix (seed : Word) : Word := seed ^^^ rotl64 seed 29 ^^^ rotl64 seed 47

/-- The issue of `PREMIX` (R161, R67). -/
def execPremix (s : State) : Out := issueSingle .premix s

/-- The `S_EXEC` step of `PREMIX` (R161): `Y <- premix(OPA)`. -/
def resultPremix (s : State) : Except NoResult Word := do
  let seed ← latched s .opa
  pure (premix seed)

/-- The issue of `HASH` (R162): `init(OPA, OPB, K_SEED)`, the seed unmixed. -/
def execHash (s : State) : Out :=
  issueDriver (fun s => do
    let base ← need s .opa
    let len ← need s .opb
    pure (startDriver base len Config.kSeed s)) s

/-- The issue of `HASHS` (R163): `init(OPA, OPB, premix(OPC))`. -/
def execHashs (s : State) : Out :=
  issueDriver (fun s => do
    let base ← need s .opa
    let len ← need s .opb
    let seed ← need s .opc
    pure (startDriver base len (premix seed) s)) s

end Sys2Proof.Machine
end

