-- ==== Sys2Proof/Machine/Readers.lean ====
section
/-! DEFINITION. The little-endian word readers `RD8`, `RD16`, `RD32`, `RD64` (R90 to R96). -/

namespace Sys2Proof.Machine

/-- The read of a reader command (R92): `n` bytes at `OPA + OPB`, from the latched operands. -/
def readerResult (n : Nat) (s : State) : Except NoResult Word := do
  let base ← latched s .opa
  let offset ← latched s .opb
  match memRead s (readerAddress base offset) n with
  | .ok v => pure v
  | .error a => throw (.overread a)

/-- The issue of `RD8` (R93, R67). -/
def execRd8 (s : State) : Out := issueSingle .rd8 s

/-- The issue of `RD16` (R94, R67). -/
def execRd16 (s : State) : Out := issueSingle .rd16 s

/-- The issue of `RD32` (R95, R67). -/
def execRd32 (s : State) : Out := issueSingle .rd32 s

/-- The issue of `RD64` (R96, R67). -/
def execRd64 (s : State) : Out := issueSingle .rd64 s

/-- The `S_EXEC` step of `RD8` (R93): `Y <- zext_64(MemRead(OPA + OPB, 1))`. -/
def resultRd8 (s : State) : Except NoResult Word := readerResult 1 s

/-- The `S_EXEC` step of `RD16` (R94): `Y <- MemRead(OPA + OPB, 2)`. -/
def resultRd16 (s : State) : Except NoResult Word := readerResult 2 s

/-- The `S_EXEC` step of `RD32` (R95): `Y <- MemRead(OPA + OPB, 4)`. -/
def resultRd32 (s : State) : Except NoResult Word := readerResult 4 s

/-- The `S_EXEC` step of `RD64` (R96): `Y <- MemRead(OPA + OPB, 8)`. -/
def resultRd64 (s : State) : Except NoResult Word := readerResult 8 s

end Sys2Proof.Machine
end

