-- ==== Sys2Proof/Machine/Dispatch.lean ====
section
/-! DEFINITION. What issuing each command does: one arm per constructor of `Instr`. -/

namespace Sys2Proof.Machine

def exec (i : Instr) (s : State) : Host.Outcome State Fault Refusal :=
  match i with
  | .rotl => Sys2Proof.Machine.execRotl s
  | .rd8 => Sys2Proof.Machine.execRd8 s
  | .rd16 => Sys2Proof.Machine.execRd16 s
  | .rd32 => Sys2Proof.Machine.execRd32 s
  | .rd64 => Sys2Proof.Machine.execRd64 s
  | .mix => Sys2Proof.Machine.execMix s
  | .mixs => Sys2Proof.Machine.execMixs s
  | .mixb => Sys2Proof.Machine.execMixb s
  | .premix => Sys2Proof.Machine.execPremix s
  | .hashi => Sys2Proof.Machine.execHashi s
  | .hash => Sys2Proof.Machine.execHash s
  | .hashs => Sys2Proof.Machine.execHashs s

end Sys2Proof.Machine
end

