-- ==== Sys2Proof/Machine/Sequencer.lean ====
section
/-! DEFINITION. The sequencer, the only agent inside the block (R18): its step in every `STAGE` (R27, R67, R133 to R137). -/

namespace Sys2Proof.Machine

/-- "compute the opcode's result from LA..LE" (R67). A driver command never stands in `S_EXEC` (R27). -/
def singleResult (i : Instr) (s : State) : Except NoResult Word :=
  match i with
  | .rotl => resultRotl s
  | .rd8 => resultRd8 s
  | .rd16 => resultRd16 s
  | .rd32 => resultRd32 s
  | .rd64 => resultRd64 s
  | .mix => resultMix s
  | .mixs => resultMixs s
  | .mixb => resultMixb s
  | .premix => resultPremix s
  | .hashi => .error .noLatch
  | .hash => .error .noLatch
  | .hashs => .error .noLatch

/-- The `S_EXEC` step (R67): the result goes to `Y` and `STAGE` to `DONE`; an overread is recorded and
changes nothing else (R174). -/
def execStep (s : State) : Out :=
  match s.running with
  | none => .fault .malformedState
  | some i =>
    match singleResult i s with
    | .ok v => .next (completeSingle v s)
    | .error (.overread a) => .next (recordFault (.bufferOverread a) s)
    | .error .noLatch => .fault .malformedState

/-- One sequencer step. In `IDLE`, `DONE` and `FAULT` no command runs and the block waits (R184, R172). -/
def seqStep (s : State) : Out :=
  match s.stage with
  | .idle => .next s
  | .sExec => execStep s
  | .sBlock => driverStep blockStep s
  | .sWord => driverStep wordStep s
  | .sTail => driverStep tailStep s
  | .sFinal => driverStep finalStep s
  | .done => .next s
  | .fault => .next s

end Sys2Proof.Machine
end

