-- ==== Sys2Proof/Machine/HostPort.lean ====
section
/-! DEFINITION. The host port: what each host operation of a program does (R20 to R22, R49, R67, R69, R190 to R195), and
the expansion of a command pseudo-instruction (R69). -/

namespace Sys2Proof.Machine

/-- A host write of `w` to `CMD` (R67): the decoded command is issued, an illegal word raises `ILLEGAL_OP`. -/
def issueWord (w : Word) (s : State) : Out :=
  match decode w with
  | .ok i => exec i s
  | .error _ => issueIllegal s

/-- An operand register written by the host: allowed at any time (R21, R196). -/
def writeOperand (r : OpReg) (v : Word) (s : State) : State := { s with ops := s.ops.set r v }

/-- A host register write (R20, R22). A bad access has no effect but its record (R173). -/
def hostWrite (r : Reg) (v : Word) (s : State) : Out :=
  match r with
  | .cmd => issueWord v s
  | .status => .next (recordFault (.badRegAccess .status) s)
  | .operand r => .next (writeOperand r v s)
  | .y => .next (recordFault (.badRegAccess .y) s)
  | .reserved k => .next (recordFault (.badRegAccess (.reserved k)) s)

/-- What a host read returned, noted for the host. -/
def noteRead (r : Reg) (v : Option Word) (s : State) : State := { s with reads := ⟨r, v⟩ :: s.reads }

/-- A host read of an operand register (R21): the last value written. A register without a value records
`UnwrittenOperand` and returns no value (R191). -/
def readOperand (r : OpReg) (s : State) : State :=
  match s.ops.get r with
  | .known v => noteRead (.operand r) (some v) s
  | .noValue _ => noteRead (.operand r) none (recordFault (.unwrittenOperand r) s)

/-- A host read of `Y` (R193): valid only while `STATUS.DONE = 1`; otherwise it records `ResultNotValid`
and returns no value (R191). -/
def readResult (s : State) : State :=
  if done s then noteRead .y s.y.toOption s
  else noteRead .y none (recordFault .resultNotValid s)

/-- A host register read (R20, R22). -/
def hostRead (r : Reg) (s : State) : State :=
  match r with
  | .cmd => noteRead .cmd none (recordFault (.badRegAccess .cmd) s)
  | .status => noteRead .status (some (statusWord s)) s
  | .operand r => readOperand r s
  | .y => readResult s
  | .reserved k => noteRead (.reserved k) none (recordFault (.badRegAccess (.reserved k)) s)

/-- Some byte of `[addr, addr + size)` is in `R_READABLE`. -/
def touchesReadable (s : State) (addr size : Nat) : Bool :=
  (List.range size).any (fun k => inReadable s (addr + k))

/-- Host writes of buffer bytes from an address upward, unless the host is barred from them. A byte at or above
`2^ADDR_W` does not exist (R40). DESIGN CHOICE (log entry 10): where a write meets both, a byte past the space and a bar,
no rule says which comes first, and the fault `noSuchByte` does. Safe: nothing is written either way. -/
def writeBuffer (barred : Bool) (addr : Nat) (bs : List Byte) (s : State) : Out :=
  if (List.range bs.length).any (fun k => !inSpace s (addr + k)) then .fault .noSuchByte
  else if barred then .refused .bufferWriteWhileBusy
  else .next { s with mem := Memory.writeBytes s.mem addr bs }

/-- `BYTES`: host writes of consecutive buffer bytes, "only while `BUSY = 0`" (R69). -/
def hostBytes (addr : Nat) (bs : List Byte) (s : State) : Out := writeBuffer (busy s) addr bs s

/-- A host write of one buffer byte. While `BUSY = 1` the model has no step that writes a byte of `R_READABLE` (R49,
R195). -/
def hostByte (addr : Nat) (b : Byte) (s : State) : Out := writeBuffer (busy s && inReadable s addr) addr [b] s

/-- The host states `R_READABLE` for the commands that follow. The set holds for the whole of a running
command (R41). -/
def hostReadable (gs : List Region) (s : State) : Out :=
  if busy s then .refused .readableChangeWhileBusy else .next { s with readable := gs }

/-- `WAIT` (R69): while `BUSY = 1` the host reads `STATUS` again and the sequencer takes a step; the read that
finds `BUSY = 0` ends it. -/
def hostWait (s : State) : Out :=
  if busy s then seqStep { s with program := .wait :: s.program }
  else .next (hostRead .status s)

/-- One host operation, already taken off the program. -/
def hostStep (op : HostOp) (s : State) : Out :=
  match op with
  | .wr r v => hostWrite r v s
  | .rd r => .next (hostRead r s)
  | .wait => hostWait s
  | .bytes addr bs => hostBytes addr bs s
  | .reset => .next (applyReset s)
  | .byte addr b => hostByte addr b s
  | .readable gs => hostReadable gs s
  | .seq => seqStep s
  | .rdIfDone => if done s then .next (readResult s) else .next s

/-- The next event of the instance: the host's next operation, or, when the host has none left, the
sequencer's step. -/
def nextEvent (s : State) : Out :=
  match s.program with
  | [] => seqStep s
  | op :: rest => hostStep op { s with program := rest }

/-- `ISSUE <MNEM>` (R69): the single line `WR CMD, <OP of MNEM>`. -/
def issueLine (i : Instr) : HostOp := .wr .cmd (encode i)

/-- A command pseudo-instruction's expansion (R69): one `WR` per operand the opcode reads, in order, the issue,
`WAIT`, and `RD Y` if `STATUS.DONE = 1`. -/
def expand (i : Instr) (vs : List Word) : List HostOp :=
  (List.zipWith (fun r v => HostOp.wr (.operand r) v) (operandsRead i) vs) ++ [issueLine i, .wait, .rdIfDone]

/-- The operand registers a command needs, each made to hold a value as R192 step 1 asks of the host before
the first command: a register without a value is written the unspecified bits it holds, and one that holds a value
keeps it (log entry 2). -/
def supplyOperands : List OpReg → OperandFile → OperandFile
  | [], f => f
  | r :: rs, f =>
    match f.get r with
    | .known _ => supplyOperands rs f
    | .noValue bits => supplyOperands rs (f.set r bits)

/-- The host about to issue a command word: its `CMD` write is the next operation, and every operand register
the command reads holds a value. -/
def aboutToIssue (w : Word) (s : State) : State :=
  match decode w with
  | .ok i =>
    { s with
      ops := supplyOperands (operandsRead i) s.ops
      program := .wr .cmd w :: s.program }
  | .error _ => { s with program := .wr .cmd w :: s.program }

end Sys2Proof.Machine
end

