-- ==== Sys2Proof/Machine/Step.lean ====
section
/-! DEFINITION. One step of the machine, and the state about to issue a given table word. -/

namespace Sys2Proof.Machine

/-- One step. A stuck instance "takes no further step, and its registers keep their values" (R173): the state stays as
it is for ever, no fault of the model's own being raised (log entry 9). Otherwise the next event happens. -/
def step (s : State) : Host.Outcome State Fault Refusal :=
  if stuck s then .next s else nextEvent s

/-- The state whose next step issues the command word `w` of `nbits` bits. The block fetches nothing (R53): the
host's `CMD` write is where a command comes from (R60). -/
def State.withFetchWord (s : State) (nbits w : Nat) : State :=
  aboutToIssue (BitVec.ofNat 64 (w % 2 ^ nbits)) s

end Sys2Proof.Machine
end

