-- ==== Sys2Proof/Machine/Reference.lean ====
section
/-! DEFINITION. The whole driver as one pure function of the buffer bytes, the length and the seed (R132), the digests of
the entry points (R165), and the number of sequencer steps a driver command takes (R141). -/

namespace Sys2Proof.Machine

/-- Step 2 of R132, `k` times: the accumulator after `k` 64-byte blocks from `p`. -/
def refBlocks (c : Config) (byte : Nat → Byte) (p : Nat) (h : Word) : Nat → Word
  | 0 => h
  | k + 1 => refBlocks c byte (p + 64) (blockMix c byte p h) k

/-- Step 3 of R132, `k` times: the accumulator after `k` 8-byte chunks from `p`. -/
def refWords (c : Config) (byte : Nat → Byte) (p : Nat) (h : Word) : Nat → Word
  | 0 => h
  | k + 1 => refWords c byte (p + 8) (mixStream c h (readLe byte p 8)) k

/-- Step 4 of R132: the tail of `n` bytes at `p`. -/
def refTail (c : Config) (byte : Nat → Byte) (p : Nat) (h : Word) (n : Nat) : Word :=
  if n = 0 then h else mixStream c h (tailValue byte p n)

/-- `axhash_internal(base, len, seed0)` (R132). The loops of steps 2 and 3 run `len / 64` and
`len mod 64 / 8` times (R139). -/
def axhashInternal (c : Config) (byte : Nat → Byte) (base len seed0 : Word) : Word :=
  let b := base.toNat
  let l := len.toNat
  let blocks := l / 64
  let words := l % 64 / 8
  let h := refBlocks c byte b (len ^^^ seed0) blocks
  let h := refWords c byte (b + 64 * blocks) h words
  let h := refTail c byte (b + 64 * blocks + 8 * words) h (l % 8)
  mix c h

/-- The seed each driver command passes to `init` (R130, R162, R163), from its `OPC`. -/
def driverSeed (i : Instr) (opc : Word) : Word :=
  match i with
  | .hash => Config.kSeed
  | .hashs => premix opc
  | _ => opc

/-- The sequencer steps of a driver command after its issue step (R141). -/
def driverSteps (len : Nat) : Nat := (len / 64 + 1) + (len % 64 / 8 + 1) + 1 + 1

end Sys2Proof.Machine
end

