-- ==== Sys2Proof/Machine/System.lean ====
section
/-! DEFINITION. Several block instances over one buffer space (R9 `N_INST`, R50, R182): each with its own registers,
`STAGE` and `FLOG`, sharing the bytes they read. -/

namespace Sys2Proof.Machine

/-- The instances, each stored without a buffer of its own, and the buffer space they share. `N_INST` is the
number of instances. -/
structure System where
  blocks : List State
  mem : Memory
deriving DecidableEq, Repr

/-- Instance `k` as it sees the system: its own registers and the shared buffer space. -/
def System.view (y : System) (k : Nat) : Option State :=
  y.blocks[k]?.map (fun b => { b with mem := y.mem })

/-- The system after instance `k` went to `s`. -/
def System.store (y : System) (k : Nat) (s : State) : System where
  blocks := y.blocks.set k { s with mem := [] }
  mem := s.mem

/-- The bytes the next host operation of an instance writes. -/
def pendingBytes (s : State) : Nat × Nat :=
  match s.program with
  | .bytes addr bs :: _ => (addr, bs.length)
  | .byte addr _ :: _ => (addr, 1)
  | _ => (0, 0)

/-- The host duty of R49 towards every instance: no byte of the `R_READABLE` of an instance whose `BUSY = 1` may
be written. DESIGN CHOICE (log entry 15): where such a write also reaches past `2^ADDR_W`, this bar comes before the fault
`noSuchByte`. Safe: nothing is written either way. -/
def System.writeBarred (y : System) (s : State) : Bool :=
  y.blocks.any (fun b => busy b && touchesReadable b (pendingBytes s).1 (pendingBytes s).2)

/-- One step of instance `k`. Which instance moves is not ordered by the spec (R50), so it is an argument. -/
def System.step (k : Nat) (y : System) : Host.Outcome System Fault Refusal :=
  match y.view k with
  | none => .fault .noSuchInstance
  | some s =>
    if !stuck s && y.writeBarred s then .refused .bufferWriteWhileBusy
    else
      match Machine.step s with
      | .next t => .next (y.store k t)
      | .fault f => .fault f
      | .refused r => .refused r

/-- A system of `count` instances, each at its own reset (R182), all with the same constants. -/
def System.reset (count : Nat) : System where
  blocks := List.replicate count State.reset
  mem := []

end Sys2Proof.Machine
end

