-- ==== Sys2Proof/Safety.lean ====
section
/-! DEFINITION. What claims are stated in: the conditions under which a command executes normally, the invariant of a
block's state, and a run that recorded no model fault (R19, R31). -/

namespace Sys2Proof.Machine

/-- `k` steps, stopping at the first fault or refusal: what `Host.Core.run` is for this machine. -/
def run : Nat → State → Out
  | 0, s => .next s
  | k + 1, s =>
    match step s with
    | .next t => run k t
    | .fault f => .fault f
    | .refused r => .refused r

/-- A command may be issued: `STAGE` is `IDLE` or `DONE` (R67). -/
abbrev State.Issuable (s : State) : Prop := s.stage = .idle ∨ s.stage = .done

/-- Every byte of `[a, a + n)` is readable (R41). -/
abbrev State.Readable (s : State) (a n : Nat) : Prop := ∀ k, k < n → readableByte s (a + k) = true

/-- A run that has recorded no model fault: the premise of every claim (R31). -/
abbrev State.Clean (s : State) : Prop := s.flog = []

/-- A driver command, as against a single-step one (R27). -/
def Instr.isDriver : Instr → Bool
  | .hashi => true
  | .hash => true
  | .hashs => true
  | _ => false

/-- The invariant of a block's state: what R23, R27, R32, R33, R67, R131 to R137 and R172 say holds in each
stage, the law of the constants (R9), the canonical form of memory, and that `FLOG` is a set (R31). -/
structure State.Inv (s : State) : Prop where
  /-- The five constants are odd. -/
  lawful : s.cfg.Lawful
  /-- Memory is in its canonical form. -/
  mem_wf : Memory.wf s.mem
  /-- `FLOG` holds no entry twice. -/
  flog_nodup : s.flog.Nodup
  /-- A fault cause is recorded exactly in `FAULT`. -/
  cause_iff : s.fcause ≠ .none ↔ s.stage = .fault
  /-- `Y` holds a result exactly in `DONE`. -/
  y_iff : s.y.isKnown = true ↔ s.stage = .done
  /-- `H` holds a value exactly in a driver stage. -/
  h_iff : s.h.isKnown = s.stage.driver
  /-- `N` holds a value exactly in a driver stage. -/
  n_iff : s.n.isKnown = s.stage.driver
  /-- `P` holds a value exactly in a driver stage. -/
  p_iff : s.p.isKnown = s.stage.driver
  /-- Fewer than 64 bytes are left after `S_BLOCK`. -/
  n_word : s.stage = .sWord → ∀ n, s.n = .known n → n.toNat < 64
  /-- Fewer than 8 bytes are left after `S_WORD`. -/
  n_tail : s.stage = .sTail → ∀ n, s.n = .known n → n.toNat < 8
  /-- No byte is left after `S_TAIL`. -/
  n_final : s.stage = .sFinal → s.n = .known 0
  /-- A single-step command is running exactly in `S_EXEC`. -/
  running_iff : s.running.isSome = true ↔ s.stage = .sExec
  /-- The running command is a single-step one, and every operand it reads is latched. -/
  latched : ∀ i, s.running = some i →
    Instr.isDriver i = false ∧ ∀ r ∈ operandsRead i, (s.latches.get r).isKnown = true
  /-- In `FAULT` no latch holds a value. -/
  fault_latches : s.stage = .fault → s.latches = noLatches

end Sys2Proof.Machine
end

