-- ==== Sys2Proof/Certificates/Slice0/Obligations.lean ====
section
/-! DEFINITION. The statements about the model, each formalising a rule of spec/ or derived from its sections. -/

open Sys2Proof Sys2Proof.Machine

/-! ### Encoding -/

/-- The opcode map of R64 on words written out from its table, and words R65 calls illegal. -/
def Obligations.OpcodeMapWordsDecode : Prop :=
  decode 0x0000000000000001 = .ok .rotl ∧ decode 0x0000000000000002 = .ok .rd8 ∧
  decode 0x0000000000000003 = .ok .rd16 ∧ decode 0x0000000000000004 = .ok .rd32 ∧
  decode 0x0000000000000005 = .ok .rd64 ∧ decode 0x0000000000000010 = .ok .mix ∧
  decode 0x0000000000000011 = .ok .mixs ∧ decode 0x0000000000000012 = .ok .mixb ∧
  decode 0x0000000000000013 = .ok .premix ∧ decode 0x0000000000000020 = .ok .hashi ∧
  decode 0x0000000000000021 = .ok .hash ∧ decode 0x0000000000000022 = .ok .hashs ∧
  decode 0x0000000000000000 = .error .reservedOpcode ∧ decode 0x0000000000000006 = .error .reservedOpcode ∧
  decode 0x00000000000000FF = .error .reservedOpcode ∧ decode 0x0000000000000110 = .error .reservedBits

/-- Decoding an encoded command gives it back; a command word has no operand field (R61, R64, R69). -/
def Obligations.DecodeInvertsEncode : Prop :=
  ∀ i : Instr, decode (encode i) = .ok i ∧ decodeTableWord 64 (encode i).toNat = some i

/-- R65 and R66: a word is a command exactly when R65 does not call it illegal, one word per command. -/
def Obligations.DecoderAcceptsExactlyTheLegalWords : Prop :=
  ∀ w : Word,
    ((∃ i, decode w = .ok i) ↔ commandWordWellFormed w = true) ∧
    (∀ i, decode w = .ok i → w = encode i) ∧
    (decode w = .error .reservedBits ↔ w.extractLsb' 8 56 ≠ 0) ∧
    (decode w = .error .reservedOpcode ↔ w.extractLsb' 8 56 = 0 ∧
      (w.toNat = 0x00 ∨ (0x06 ≤ w.toNat ∧ w.toNat ≤ 0x0F) ∨ (0x14 ≤ w.toNat ∧ w.toNat ≤ 0x1F) ∨ 0x23 ≤ w.toNat))

/-- R20: the register indices 0 to 15 and the register names are in one-to-one correspondence, with the
numbers of R20's table. -/
def Obligations.RegisterIndicesAreOneToOne : Prop :=
  (∀ r : Reg, Reg.ofIndex r.index = r) ∧ (∀ k : Fin 16, (Reg.ofIndex k).index = k) ∧
  Reg.index .cmd = 0 ∧ Reg.index .status = 1 ∧ Reg.index (.operand .opa) = 2 ∧ Reg.index (.operand .opb) = 3 ∧
  Reg.index (.operand .opc) = 4 ∧ Reg.index (.operand .opd) = 5 ∧ Reg.index (.operand .ope) = 6 ∧ Reg.index .y = 7

/-! ### Steps and issue -/

/-- When the host's next operation writes a legal word to `CMD`, the step is `exec` of the decoded command, at the
state with that operation taken off the program (R60, R64, R67). -/
def Obligations.StepIssuesTheDecodedCommand : Prop :=
  ∀ (s : State) (w : Word) (i : Instr) (rest : List HostOp),
    stuck s = false → s.program = .wr .cmd w :: rest → decode w = .ok i →
    step s = exec i { s with program := rest }

/-- `withFetchWord` lays a command word where the next step issues it, and gives a value only to operand registers
that hold none (R192 step 1; the model's own choice, log entry 2). -/
def Obligations.FetchWordIsIssuedNext : Prop :=
  ∀ (s : State) (i : Instr), stuck s = false →
    ∃ f : OperandFile,
      step (s.withFetchWord 64 (encode i).toNat) = exec i { s with ops := f } ∧
      (∀ r ∈ operandsRead i, (f.get r).isKnown = true) ∧
      (∀ r v, s.ops.get r = .known v → f.get r = .known v) ∧
      (∀ r, r ∉ operandsRead i → f.get r = s.ops.get r)

/-- R67, R171, R172: in `IDLE` or `DONE` an illegal word raises `ILLEGAL_OP`; nothing of the operand registers, the
buffer or the program changes. -/
def Obligations.IllegalWordRaisesIllegalOp : Prop :=
  ∀ (s : State) (w : Word) (rest : List HostOp),
    stuck s = false → s.Issuable → s.program = .wr .cmd w :: rest → commandWordWellFormed w = false →
    ∃ t, step s = .next t ∧ t = { s with
      program := rest, stage := .fault, fcause := .illegalOp, y := noY, h := noH, n := noN, p := noP,
      latches := noLatches, running := t.running }

/-- R172, R174, R194: while `BUSY = 1` every `CMD` write, legal or not, raises `BUSY_ISSUE` and abandons the running
command. -/
def Obligations.AnyCommandWriteWhileBusyRaisesBusyIssue : Prop :=
  ∀ (s : State) (w : Word) (rest : List HostOp),
    stuck s = false → busy s = true → s.program = .wr .cmd w :: rest →
    ∃ t, step s = .next t ∧ t = { s with
      program := rest, stage := .fault, fcause := .busyIssue, y := noY, h := noH, n := noN, p := noP,
      latches := noLatches, running := t.running }

/-- R175: in `FAULT` a `CMD` write has no effect. -/
def Obligations.CommandWriteInFaultHasNoEffect : Prop :=
  ∀ (s : State) (w : Word) (rest : List HostOp),
    stuck s = false → s.stage = .fault → s.program = .wr .cmd w :: rest →
    step s = .next { s with program := rest }

/-- R67, R173, R174: in `IDLE` or `DONE`, a command whose first operand register without a value is `r` records
`UnwrittenOperand(r)` and changes nothing else; the instance then takes no further step. -/
def Obligations.UnwrittenOperandIsRecordedAndSticks : Prop :=
  ∀ (s : State) (i : Instr) (before after : List OpReg) (r : OpReg),
    s.Issuable → operandsRead i = before ++ r :: after →
    (∀ q ∈ before, (s.ops.get q).isKnown = true) → (s.ops.get r).isKnown = false →
    ∃ t, exec i s = .next t ∧ t = { s with flog := t.flog } ∧
      (∀ f, f ∈ t.flog ↔ f ∈ s.flog ∨ f = .unwrittenOperand r) ∧
      step t = .next t

/-! ### The single-step commands: issue, then the `S_EXEC` step

In the states these statements give, the field `running` (log entry 7) and the latches of the operand registers a
command does not read (log entry 13) are the model's own choice. -/

/-- R81, R67: `ROTL` latches `OPA` and `OPB`, enters `S_EXEC`, and its one sequencer step writes
`rotl64(OPA, OPB)` to `Y` and enters `DONE`; nothing else changes. -/
def Obligations.RotlRotatesOpaByOpb : Prop :=
  ∀ (s : State) (n c : Word), s.Issuable → s.ops.a = .known n → s.ops.b = .known c →
    ∃ t, exec .rotl s = .next t ∧
      t = { s with
        y := noY, latches := { s.latches with a := .known n, b := .known c }, running := some .rotl, stage := .sExec } ∧
      seqStep t = .next { t with y := .known (rotl64 n c.toNat), running := none, stage := .done }

/-- R92 to R96, R67, R42: each reader latches base and offset, enters `S_EXEC`, and, its bytes being readable, its one
sequencer step writes the little-endian number of its 1, 2, 4 or 8 bytes from `OPA + OPB` upward to `Y` and enters
`DONE`; nothing else changes. -/
def Obligations.ReadersReadLittleEndianBytes : Prop :=
  ∀ (i : Instr) (width : Nat), (i, width) ∈ [(Instr.rd8, 1), (.rd16, 2), (.rd32, 4), (.rd64, 8)] →
  ∀ (s : State) (base offset : Word), s.Issuable → s.ops.a = .known base → s.ops.b = .known offset →
    s.Readable (base.toNat + offset.toNat) width →
    ∃ t, exec i s = .next t ∧
      t = { s with
        y := noY, latches := { s.latches with a := .known base, b := .known offset }, running := some i,
        stage := .sExec } ∧
      seqStep t = .next { t with
        y := .known ((List.range width).foldl
          (fun v k => v ||| zext64 (byteAt s (base.toNat + offset.toNat + k)) <<< (8 * k)) 0),
        running := none, stage := .done }

/-- R92, R42, R174: a reader one of whose bytes is not readable records `BufferOverread` of the lowest such address in its
`S_EXEC` step, changes nothing else, and the instance takes no further step. -/
def Obligations.ReaderOverreadIsRecordedAndSticks : Prop :=
  ∀ (i : Instr) (width : Nat), (i, width) ∈ [(Instr.rd8, 1), (.rd16, 2), (.rd32, 4), (.rd64, 8)] →
  ∀ (s : State) (base offset : Word) (k : Nat), s.stage = .sExec → s.running = some i →
    s.latches.a = .known base → s.latches.b = .known offset →
    k < width → s.Readable (base.toNat + offset.toNat) k →
    readableByte s (base.toNat + offset.toNat + k) = false →
    ∃ t, seqStep s = .next t ∧ t = { s with flog := t.flog } ∧
      (∀ f, f ∈ t.flog ↔ f ∈ s.flog ∨ f = .bufferOverread (base.toNat + offset.toNat + k)) ∧
      step t = .next t

/-- R101, R100, R67: `MIX` writes `mix(OPA)` to `Y`; nothing else changes. -/
def Obligations.MixFinalizesOpa : Prop :=
  ∀ (s : State) (x : Word), s.Issuable → s.ops.a = .known x →
    ∃ t, exec .mix s = .next t ∧
      t = { s with y := noY, latches := { s.latches with a := .known x }, running := some .mix, stage := .sExec } ∧
      ∃ f m, f = x ^^^ rotl64 x 23 ^^^ rotl64 x 43 ∧ m = f * s.cfg.kC ∧
        seqStep t = .next { t with
          y := .known (m ^^^ rotl64 m 11 ^^^ rotl64 m 50), running := none, stage := .done }

/-- R111, R110, R67: `MIXS` writes `mix_stream(OPA, OPB)`, in the closed form of R110, to `Y`; nothing else changes. -/
def Obligations.MixsFoldsOneWord : Prop :=
  ∀ (s : State) (h x : Word), s.Issuable → s.ops.a = .known h → s.ops.b = .known x →
    ∃ t, exec .mixs s = .next t ∧
      t = { s with
        y := noY, latches := { s.latches with a := .known h, b := .known x }, running := some .mixs, stage := .sExec } ∧
      ∃ y, y = s.cfg.kC * x ∧
        seqStep t = .next { t with
          y := .known ((h + s.cfg.kC * (y ^^^ (y >>> 39))) * s.cfg.kC), running := none, stage := .done }

/-- R116, R115, R67: `MIXB` writes `mix_stream_bulk` of the five operands to `Y`; nothing else changes. -/
def Obligations.MixbFoldsFourWords : Prop :=
  ∀ (s : State) (h a b c d : Word), s.Issuable → s.ops = ⟨.known h, .known a, .known b, .known c, .known d⟩ →
    ∃ t, exec .mixb s = .next t ∧
      t = { s with y := noY, latches := s.ops, running := some .mixb, stage := .sExec } ∧
      seqStep t = .next { t with
        y := .known (h + (rotl64 a 29 - c) * s.cfg.kQ + (rotl64 b 29 - d) * s.cfg.kR
          + (rotl64 c 29 - b) * s.cfg.kS + (rotl64 d 29 - a) * s.cfg.kT),
        running := none, stage := .done }

/-- R161, R160, R67: `PREMIX` writes the pre-mixed `OPA` to `Y`; nothing else changes. -/
def Obligations.PremixMixesTheSeed : Prop :=
  ∀ (s : State) (seed : Word), s.Issuable → s.ops.a = .known seed →
    ∃ t, exec .premix s = .next t ∧
      t = { s with
        y := noY, latches := { s.latches with a := .known seed }, running := some .premix, stage := .sExec } ∧
      seqStep t = .next { t with
        y := .known (seed ^^^ rotl64 seed 29 ^^^ rotl64 seed 47), running := none, stage := .done }

/-- R21, R33: a running command computes from what it took at issue: whatever the operand registers are changed to,
the sequencer's step gives the same state but for them. -/
def Obligations.OperandWritesDoNotReachARunningCommand : Prop :=
  ∀ (s t : State) (f : OperandFile), busy s = true → seqStep s = .next t →
    seqStep { s with ops := f } = .next { t with ops := f }

/-! ### The driver -/

/-- R130, R131: the issue of `HASHI`: `H = len ^ OPC`, `N = len`, `P = base`, `STAGE = S_BLOCK`. -/
def Obligations.HashiInitialisesWithTheRawSeed : Prop :=
  ∀ (s : State) (base len seed : Word), s.Issuable →
    s.ops.a = .known base → s.ops.b = .known len → s.ops.c = .known seed →
    exec .hashi s = .next { s with
      y := noY, h := .known (len ^^^ seed), n := .known len, p := .known base.toNat, stage := .sBlock }

/-- R162, R163, R131, R160: the issue of `HASH` passes the default seed, unmixed, and reads no `OPC`; the issue of
`HASHS` passes the pre-mixed `OPC`. -/
def Obligations.HashAndHashsInitialiseWithTheirSeeds : Prop :=
  ∀ (s : State) (base len : Word), s.Issuable → s.ops.a = .known base → s.ops.b = .known len →
    exec .hash s = .next { s with
      y := noY, h := .known (len ^^^ 0x3C79AC492BA7B653), n := .known len, p := .known base.toNat, stage := .sBlock } ∧
    ∀ seed, s.ops.c = .known seed →
      exec .hashs s = .next { s with
        y := noY, h := .known (len ^^^ (seed ^^^ rotl64 seed 29 ^^^ rotl64 seed 47)), n := .known len,
        p := .known base.toNat, stage := .sBlock }

/-- R133, R134: with 64 bytes or more left, a `S_BLOCK` step reads eight words at `P`, mixes the first four into
`H * K_C` and the last four into that result rotated by 37, and moves past the block; with fewer it only enters
`S_WORD`. If a byte of the block may not be read, the step records the lowest such address and changes nothing else. -/
def Obligations.BlockStepConsumesTwoHalves : Prop :=
  ∀ (s : State) (h n : Word) (p : Nat), s.stage = .sBlock → s.h = .known h → s.n = .known n → s.p = .known p →
    (n.toNat < 64 → seqStep s = .next { s with stage := .sWord }) ∧
    (64 ≤ n.toNat → ∀ w0 w1 w2 w3 w4 w5 w6 w7 h1 : Word,
      memRead s p 8 = .ok w0 → memRead s (p + 8) 8 = .ok w1 → memRead s (p + 16) 8 = .ok w2 →
      memRead s (p + 24) 8 = .ok w3 → memRead s (p + 32) 8 = .ok w4 → memRead s (p + 40) 8 = .ok w5 →
      memRead s (p + 48) 8 = .ok w6 → memRead s (p + 56) 8 = .ok w7 →
      h1 = mixStreamBulk s.cfg (h * s.cfg.kC) w0 w1 w2 w3 →
      seqStep s = .next { s with
        h := .known (mixStreamBulk s.cfg (rotl64 h1 37) w4 w5 w6 w7), p := .known (p + 64), n := .known (n - 64) }) ∧
    (64 ≤ n.toNat → ∀ k, k < 64 → s.Readable p k → readableByte s (p + k) = false →
      ∃ t, seqStep s = .next t ∧ t = { s with flog := t.flog } ∧
        ∀ f, f ∈ t.flog ↔ f ∈ s.flog ∨ f = .bufferOverread (p + k))

/-- R135: with 8 bytes or more left, a `S_WORD` step folds one word and moves past it; with fewer it only enters
`S_TAIL`. If a byte of the word may not be read, the step records the lowest such address and changes nothing else
(R174). -/
def Obligations.WordStepFoldsOneChunk : Prop :=
  ∀ (s : State) (h n : Word) (p : Nat), s.stage = .sWord → s.h = .known h → s.n = .known n → s.p = .known p →
    (n.toNat < 8 → seqStep s = .next { s with stage := .sTail }) ∧
    (8 ≤ n.toNat → ∀ w : Word, memRead s p 8 = .ok w →
      seqStep s = .next { s with h := .known (mixStream s.cfg h w), p := .known (p + 8), n := .known (n - 8) }) ∧
    (8 ≤ n.toNat → ∀ k, k < 8 → s.Readable p k → readableByte s (p + k) = false →
      ∃ t, seqStep s = .next t ∧ t = { s with flog := t.flog } ∧
        ∀ f, f ∈ t.flog ↔ f ∈ s.flog ∨ f = .bufferOverread (p + k))

/-- R136: a `S_TAIL` step composes the tail's value by the row of `N`, folds it once (not at all for `N = 0`), and enters
`S_FINAL` with `N = 0`. If a byte of the tail may not be read, the step records the lowest such address and changes
nothing else (R174). -/
def Obligations.TailStepTakesExactlyOneRow : Prop :=
  ∀ (s : State) (h n : Word) (p : Nat), s.stage = .sTail → s.h = .known h → s.n = .known n → s.p = .known p →
    (n = 0 → seqStep s = .next { s with n := .known 0, stage := .sFinal }) ∧
    (∀ v : Word,
      (n = 1 ∧ memRead s p 1 = .ok v) ∨
      (n = 2 ∧ memRead s p 2 = .ok v) ∨
      (n = 3 ∧ ∃ a b, memRead s p 2 = .ok a ∧ memRead s (p + 2) 1 = .ok b ∧ v = a ||| b <<< 16) ∨
      (n = 4 ∧ memRead s p 4 = .ok v) ∨
      (n = 5 ∧ ∃ a b, memRead s p 4 = .ok a ∧ memRead s (p + 4) 1 = .ok b ∧ v = a ||| b <<< 32) ∨
      (n = 6 ∧ ∃ a b, memRead s p 4 = .ok a ∧ memRead s (p + 4) 2 = .ok b ∧ v = a ||| b <<< 32) ∨
      (n = 7 ∧ ∃ a b c, memRead s p 4 = .ok a ∧ memRead s (p + 4) 2 = .ok b ∧ memRead s (p + 6) 1 = .ok c ∧
        v = a ||| b <<< 32 ||| c <<< 48) →
      seqStep s = .next { s with h := .known (mixStream s.cfg h v), n := .known 0, stage := .sFinal }) ∧
    (n.toNat < 8 → ∀ k, k < n.toNat → s.Readable p k → readableByte s (p + k) = false →
      ∃ t, seqStep s = .next t ∧ t = { s with flog := t.flog } ∧
        ∀ f, f ∈ t.flog ↔ f ∈ s.flog ∨ f = .bufferOverread (p + k))

/-- R137: a `S_FINAL` step writes `mix(H)` to `Y`, leaves `H`, `N`, `P` without a value and enters `DONE`. -/
def Obligations.FinalStepWritesTheDigest : Prop :=
  ∀ (s : State) (h n : Word) (p : Nat), s.stage = .sFinal → s.h = .known h → s.n = .known n → s.p = .known p →
    seqStep s = .next { s with y := .known (mix s.cfg h), h := noH, n := noN, p := noP, stage := .done }

/-- R132, R130, R141: `HASHI` over a readable buffer is busy until it reaches `DONE` after exactly the number of
sequencer steps R141 gives, with `Y = axhash_internal(OPA, OPB, OPC)`; every other field is as at issue (the latches: log entry 13). -/
def Obligations.HashiReachesTheReferenceDigest : Prop :=
  ∀ (s : State) (base len seed : Word), s.Issuable → stuck s = false → s.program = [] →
    s.ops.a = .known base → s.ops.b = .known len → s.ops.c = .known seed → s.Readable base.toNat len.toNat →
    ∃ t, exec .hashi s = .next t ∧
      (∀ k, k < (len.toNat / 64 + 1) + (len.toNat % 64 / 8 + 1) + 1 + 1 →
        ∃ u, run k t = .next u ∧ busy u = true) ∧
      run ((len.toNat / 64 + 1) + (len.toNat % 64 / 8 + 1) + 1 + 1) t
        = .next { s with
            y := .known (axhashInternal s.cfg (byteAt s) base len seed), h := noH, n := noN, p := noP,
            stage := .done }

/-- R162, R163, R165, R141: `HASH` and `HASHS` reach `DONE` after the same number of steps, with the driver's digest under
the default seed and under the pre-mixed seed. -/
def Obligations.HashAndHashsReachTheReferenceDigest : Prop :=
  ∀ (s : State) (base len : Word), s.Issuable → stuck s = false → s.program = [] →
    s.ops.a = .known base → s.ops.b = .known len → s.Readable base.toNat len.toNat →
    (∃ t, exec .hash s = .next t ∧
      run ((len.toNat / 64 + 1) + (len.toNat % 64 / 8 + 1) + 1 + 1) t
        = .next { s with
            y := .known (axhashInternal s.cfg (byteAt s) base len 0x3C79AC492BA7B653), h := noH, n := noN, p := noP,
            stage := .done }) ∧
    (∀ seed, s.ops.c = .known seed →
      ∃ t, exec .hashs s = .next t ∧
        run ((len.toNat / 64 + 1) + (len.toNat % 64 / 8 + 1) + 1 + 1) t
          = .next { s with
              y := .known (axhashInternal s.cfg (byteAt s) base len (premix seed)), h := noH, n := noN, p := noP,
              stage := .done })

/-- R142, R140, R173: a driver command one of whose bytes is not readable never completes: it records `BufferOverread`
of the lowest such address and the instance takes no further step, still busy and without a result. The state `v` that
the recording step starts from is not stuck: no model fault was recorded before it, and the steps up to it changed
`STAGE`, `H`, `N` and `P` only. The step that records the fault changes nothing else (R174). `HASH` needs no value in `OPC` (R62). -/
def Obligations.DriverOverreadStopsAtTheLowestByte : Prop :=
  ∀ (i : Instr) (s : State) (base len : Word) (k : Nat), i ∈ [Instr.hashi, .hash, .hashs] →
    s.Issuable → stuck s = false → s.program = [] →
    s.ops.a = .known base → s.ops.b = .known len → (∀ r ∈ operandsRead i, (s.ops.get r).isKnown = true) →
    k < len.toNat → s.Readable base.toNat k → readableByte s (base.toNat + k) = false →
    ∃ t v u m, exec i s = .next t ∧ m < driverSteps len.toNat ∧ run m t = .next v ∧ step v = .next u ∧
      v = { s with y := noY, stage := v.stage, h := v.h, n := v.n, p := v.p } ∧ v.flog = s.flog ∧ stuck v = false ∧
      u = { v with flog := u.flog } ∧ (∀ f, f ∈ u.flog ↔ f ∈ s.flog ∨ f = .bufferOverread (base.toNat + k)) ∧
      busy u = true ∧ u.y.isKnown = false ∧ step u = .next u

/-- R140, R166: the digest depends on no byte outside `[base, base + len)`. -/
def Obligations.DigestDependsOnlyOnItsBytes : Prop :=
  ∀ (c : Config) (f g : Nat → Byte) (base len seed : Word),
    (∀ k, k < len.toNat → f (base.toNat + k) = g (base.toNat + k)) →
    axhashInternal c f base len seed = axhashInternal c g base len seed

/-- R143: with `len = 0` the driver's value is `mix(seed0)`, for any bytes, and 0 for `seed0 = 0`. -/
def Obligations.ZeroLengthDigestIsMixOfTheSeed : Prop :=
  ∀ (c : Config) (byte : Nat → Byte) (base seed : Word),
    axhashInternal c byte base 0 seed = mix c seed ∧ axhashInternal c byte base 0 0 = 0

/-- R166: two issues of one command with the same constants, bytes, `R_READABLE` and operand values run alike: at every
step the same `STAGE` and the same `Y`, whatever the rest of the two states was. -/
def Obligations.SameInputsGiveTheSameResult : Prop :=
  ∀ (i : Instr) (s s' t t' u : State) (k : Nat),
    s.Issuable → s'.Issuable → s.program = [] → s'.program = [] → s.flog = s'.flog →
    s.cfg = s'.cfg → s.mem = s'.mem → s.readable = s'.readable →
    (∀ r ∈ operandsRead i, (s.ops.get r).isKnown = true ∧ s.ops.get r = s'.ops.get r) →
    exec i s = .next t → exec i s' = .next t' → run k t = .next u →
    ∃ u', run k t' = .next u' ∧ u'.stage = u.stage ∧ u'.y = u.y

/-! ### The pure functions -/

/-- R80, bit by bit: `rotl64(n, c)[i] = n[(i - (c mod 64)) mod 64]`. -/
def Obligations.RotlMovesEveryBit : Prop :=
  ∀ (n : Word) (c i : Nat), i < 64 →
    (rotl64 n c).getLsbD i = n.getLsbD ((i + 64 - c % 64) % 64)

/-- R82: the laws of `rotl64`. -/
def Obligations.RotlLawsHold : Prop :=
  (∀ (n : Word) (a : Nat), rotl64 n a = rotl64 n (a % 64)) ∧
  (∀ (n : Word) (a b : Nat), rotl64 (rotl64 n a) b = rotl64 n (a + b)) ∧
  (∀ n : Word, rotl64 n 0 = n) ∧
  (∀ a : Nat, Function.Bijective (fun n => rotl64 n a) ∧
    ∀ n : Word, rotl64 (rotl64 n a) (64 - a % 64) = n ∧ rotl64 (rotl64 n (64 - a % 64)) a = n) ∧
  (∀ (n : Word) (a : Nat),
    (List.range 64).countP (fun i => (rotl64 n a).getLsbD i) = (List.range 64).countP (fun i => n.getLsbD i)) ∧
  (∀ (x y : Word) (a : Nat), rotl64 (x ^^^ y) a = rotl64 x a ^^^ rotl64 y a ∧
    rotl64 (x ||| y) a = rotl64 x a ||| rotl64 y a ∧ rotl64 (x &&& y) a = rotl64 x a &&& rotl64 y a)

/-- R40, R41, R42: a byte may be read exactly when its address is below `2^ADDR_W` and lies in `R_READABLE`; a read of
such bytes gives their little-endian number, and otherwise the read gives no value and the lowest address that may
not be read. -/
def Obligations.MemReadIsLittleEndianOrTheLowestOverread : Prop :=
  ∀ (s : State) (a n : Nat),
    (readableByte s a = true ↔ a < 2 ^ s.cfg.addrW ∧ ∃ g ∈ s.readable, g.base ≤ a ∧ a < g.base + g.size) ∧
    (s.Readable a n →
      memRead s a n = .ok ((List.range n).foldl (fun v k => v ||| zext64 (byteAt s (a + k)) <<< (8 * k)) 0)) ∧
    (∀ k, k < n → s.Readable a k → readableByte s (a + k) = false → memRead s a n = .error (a + k))

/-- R46: mixed-width reads agree, all bytes being readable. -/
def Obligations.MixedWidthReadsAgree : Prop :=
  ∀ (s : State) (a m : Nat), m ∈ [1, 2, 4] → s.Readable a (2 * m) →
    ∃ v lo hi, memRead s a (2 * m) = .ok v ∧ memRead s a m = .ok lo ∧ memRead s (a + m) m = .ok hi ∧
      v = lo ||| hi <<< (8 * m)

/-- R138: for 1 to 7 bytes the composed tail value is the tail bytes as a little-endian number, below `2^(8N)`. -/
def Obligations.TailValueIsTheLittleEndianTail : Prop :=
  ∀ (byte : Nat → Byte) (p n : Nat), 1 ≤ n → n ≤ 7 →
    (tailValue byte p n).toNat = ((List.range n).map (fun k => (byte (p + k)).toNat * 2 ^ (8 * k))).sum ∧
    (tailValue byte p n).toNat < 2 ^ (8 * n)

/-- R102, R112, R117: the three contracts of the source, for every value of the constants. -/
def Obligations.ZeroContractsHoldForEveryConstant : Prop :=
  ∀ c : Config, mix c 0 = 0 ∧ mixStream c 0 0 = 0 ∧ ∀ h : Word, mixStreamBulk c h 0 0 0 0 = h

/-- R103: `mix` is the composition of three bijections, the first and the last linear over GF(2), so it is one;
`mix(x) = 0` only for 0, and the first stage fixes the all-ones word. -/
def Obligations.MixIsABijection : Prop :=
  ∀ c : Config, c.Lawful →
    (∀ x : Word, mix c x = mixLast (mixFirst x * c.kC)) ∧
    (∀ x : Word, mixFirst x = x ^^^ rotl64 x 23 ^^^ rotl64 x 43) ∧
    (∀ z : Word, mixLast z = z ^^^ rotl64 z 11 ^^^ rotl64 z 50) ∧
    (∀ x y : Word, mixFirst (x ^^^ y) = mixFirst x ^^^ mixFirst y ∧ mixLast (x ^^^ y) = mixLast x ^^^ mixLast y) ∧
    Function.Bijective mixFirst ∧ Function.Bijective (fun y : Word => y * c.kC) ∧ Function.Bijective mixLast ∧
    Function.Bijective (mix c) ∧ (∀ x : Word, mix c x = 0 → x = 0) ∧
    mixFirst 0xFFFFFFFFFFFFFFFF = 0xFFFFFFFFFFFFFFFF

/-- R113: the laws of `mix_stream`. -/
def Obligations.MixStreamLawsHold : Prop :=
  ∀ c : Config, c.Lawful →
    (∀ h : Word, mixStream c h 0 = h * c.kC) ∧
    (∀ x : Word, Function.Bijective (fun h => mixStream c h x)) ∧
    (∀ h : Word, Function.Bijective (fun x => mixStream c h x)) ∧
    (∀ h h' x : Word, mixStream c h x - mixStream c h' x = (h - h') * c.kC)

/-- R118: the laws of `mix_stream_bulk`: `h` enters by addition, the words by a sum of single-word terms, none of which is
additive in its word. -/
def Obligations.MixStreamBulkLawsHold : Prop :=
  (∀ k : Config,
    (∀ h a b c d : Word, mixStreamBulk k h a b c d = h + mixStreamBulk k 0 a b c d) ∧
    (∀ a b c d : Word, Function.Bijective (fun h => mixStreamBulk k h a b c d)) ∧
    (∀ w : Word, mixStreamBulk k 0 w 0 0 0 = rotl64 w 29 * k.kQ - w * k.kT ∧
      mixStreamBulk k 0 0 w 0 0 = rotl64 w 29 * k.kR - w * k.kS ∧
      mixStreamBulk k 0 0 0 w 0 = rotl64 w 29 * k.kS - w * k.kQ ∧
      mixStreamBulk k 0 0 0 0 w = rotl64 w 29 * k.kT - w * k.kR) ∧
    (∀ a b c d : Word, mixStreamBulk k 0 a b c d = mixStreamBulk k 0 a 0 0 0 + mixStreamBulk k 0 0 b 0 0
      + mixStreamBulk k 0 0 0 c 0 + mixStreamBulk k 0 0 0 0 d)) ∧
  (∃ x y : Word, rotl64 (x + y) 29 ≠ rotl64 x 29 + rotl64 y 29) ∧
  (∀ k : Config, k.Lawful →
    (∃ x y : Word, mixStreamBulk k 0 (x + y) 0 0 0 ≠ mixStreamBulk k 0 x 0 0 0 + mixStreamBulk k 0 y 0 0 0) ∧
    (∃ x y : Word, mixStreamBulk k 0 0 (x + y) 0 0 ≠ mixStreamBulk k 0 0 x 0 0 + mixStreamBulk k 0 0 y 0 0) ∧
    (∃ x y : Word, mixStreamBulk k 0 0 0 (x + y) 0 ≠ mixStreamBulk k 0 0 0 x 0 + mixStreamBulk k 0 0 0 y 0) ∧
    (∃ x y : Word, mixStreamBulk k 0 0 0 0 (x + y) ≠ mixStreamBulk k 0 0 0 0 x + mixStreamBulk k 0 0 0 0 y))

/-- R164: `premix` is a GF(2)-linear bijection that fixes 0 and the all-ones word. -/
def Obligations.PremixIsALinearBijection : Prop :=
  Function.Bijective premix ∧ premix 0 = 0 ∧ premix 0xFFFFFFFFFFFFFFFF = 0xFFFFFFFFFFFFFFFF ∧
  (∀ x : Word, premix x = x ^^^ rotl64 x 29 ^^^ rotl64 x 47) ∧
  ∀ x y : Word, premix (x ^^^ y) = premix x ^^^ premix y

/-! ### The host port

That what a read returned is noted in the field `reads` is the model's own choice (log entry 11). -/

/-- R23, R27, R171: every field of `STATUS`. -/
def Obligations.StatusFieldsFollowTheStage : Prop :=
  ∀ s : State,
    ((statusWord s).getLsbD 0 = true ↔ s.stage = .sExec ∨ s.stage = .sBlock ∨ s.stage = .sWord ∨
      s.stage = .sTail ∨ s.stage = .sFinal) ∧
    ((statusWord s).getLsbD 1 = true ↔ s.stage = .done) ∧
    ((statusWord s).getLsbD 2 = true ↔ s.stage = .fault) ∧
    (statusWord s).extractLsb' 3 5 = 0 ∧ (statusWord s).extractLsb' 12 52 = 0 ∧
    (s.stage = .fault → s.fcause = .illegalOp → statusWord s = 0x0000000000000104) ∧
    (s.stage = .fault → s.fcause = .busyIssue → statusWord s = 0x0000000000000204) ∧
    (s.stage ≠ .fault → (statusWord s).extractLsb' 8 4 = 0) ∧ ((statusWord s).extractLsb' 8 4).toNat ≤ 2 ∧
    (statusWord s = 0 ↔ s.stage = .idle)

/-- R20, R196: a host read of `STATUS` is allowed in every stage, returns the word, and changes nothing else. -/
def Obligations.StatusReadHasNoSideEffect : Prop :=
  ∀ (s : State) (rest : List HostOp), stuck s = false → s.program = .rd .status :: rest →
    step s = .next { s with program := rest, reads := ⟨.status, some (statusWord s)⟩ :: s.reads }

/-- R21, R196: in every stage the host writes an operand register and reads back the last value written; no other
operand register and nothing else changes. -/
def Obligations.OperandRegistersHoldTheLastWrite : Prop :=
  ∀ (s : State) (r : OpReg) (v : Word) (rest : List HostOp),
    stuck s = false → s.program = .wr (.operand r) v :: .rd (.operand r) :: rest →
    ∃ t, step s = .next t ∧ t = { s with program := .rd (.operand r) :: rest, ops := t.ops } ∧
      (∀ q, q ≠ r → t.ops.get q = s.ops.get q) ∧
      step t = .next { t with program := rest, reads := ⟨.operand r, some v⟩ :: t.reads }

/-- R191, R173: a host read of an operand register without a value returns no value, records `UnwrittenOperand`, and the
instance takes no further step. -/
def Obligations.UnwrittenOperandReadIsRecorded : Prop :=
  ∀ (s : State) (r : OpReg) (rest : List HostOp),
    stuck s = false → (s.ops.get r).isKnown = false → s.program = .rd (.operand r) :: rest →
    ∃ t, step s = .next t ∧
      t = { s with program := rest, reads := ⟨.operand r, none⟩ :: s.reads, flog := t.flog } ∧
      (∀ f, f ∈ t.flog ↔ f ∈ s.flog ∨ f = .unwrittenOperand r) ∧ step t = .next t

/-- R22, R173: each bad register access records `BadRegAccess`, has no other effect, returns no value (noted for the host:
the model's choice, log entry 11), and does not stop the instance (the model's reading, log entry 9). -/
def Obligations.BadRegisterAccessIsRecordedOnly : Prop :=
  ∀ (s : State) (op : HostOp) (r : Reg) (v : Word) (rest : List HostOp),
    stuck s = false → s.program = op :: rest →
    (op = .rd r ∧ (r = .cmd ∨ ∃ k, r = .reserved k)) ∨
      (op = .wr r v ∧ (r = .status ∨ r = .y ∨ ∃ k, r = .reserved k)) →
    ∃ t, step s = .next t ∧ t = { s with program := rest, reads := t.reads, flog := t.flog } ∧
      (∀ f, f ∈ t.flog ↔ f ∈ s.flog ∨ f = .badRegAccess r) ∧
      (t.reads = if op = .rd r then ⟨r, none⟩ :: s.reads else s.reads) ∧ stuck t = false

/-- R193, R191: a host read of `Y` returns the result while `DONE = 1`; otherwise it records `ResultNotValid`, returns no
value, and does not stop the instance (the model's reading, log entry 9). -/
def Obligations.ResultIsReadOnlyWhileDone : Prop :=
  ∀ (s : State) (rest : List HostOp), stuck s = false → s.program = .rd .y :: rest →
    (s.stage = .done → step s = .next { s with program := rest, reads := ⟨.y, s.y.toOption⟩ :: s.reads }) ∧
    (s.stage ≠ .done → ∃ t, step s = .next t ∧
      t = { s with program := rest, reads := ⟨.y, none⟩ :: s.reads, flog := t.flog } ∧
      (∀ f, f ∈ t.flog ↔ f ∈ s.flog ∨ f = .resultNotValid) ∧ stuck t = false)

/-- R69, R49, R195, R40: a host write of buffer bytes changes exactly those bytes. `BYTES` exists only while `BUSY = 0`, and
the model has no step that writes a byte of `R_READABLE` while `BUSY = 1`, nor one that writes past the buffer space (how
it stops, that the fault comes before the refusal, and the single write `byte`: the model's choice, log entry 10). -/
def Obligations.HostBytesChangeExactlyTheWrittenBytes : Prop :=
  ∀ (s : State) (op : HostOp) (addr : Nat) (bs : List Byte) (rest : List HostOp),
    stuck s = false → s.program = op :: rest → op = .bytes addr bs ∨ (∃ b, bs = [b] ∧ op = .byte addr b) →
    ((∀ k, k < bs.length → addr + k < 2 ^ s.cfg.addrW) →
      (busy s = true → (op = .bytes addr bs ∨ ∃ k, k < bs.length ∧ inReadable s (addr + k) = true) →
        step s = .refused .bufferWriteWhileBusy) ∧
      ((busy s = true → op ≠ .bytes addr bs ∧ ∀ k, k < bs.length → inReadable s (addr + k) = false) →
        ∃ t, step s = .next t ∧ t = { s with program := rest, mem := t.mem } ∧
          (∀ k b, bs[k]? = some b → byteAt t (addr + k) = b) ∧
          (∀ a, (∀ k, k < bs.length → a ≠ addr + k) → byteAt t a = byteAt s a))) ∧
    ((∃ k, k < bs.length ∧ 2 ^ s.cfg.addrW ≤ addr + k) → step s = .fault .noSuchByte)

/-- R69: `WAIT` stands until a read of `STATUS` finds `BUSY = 0`; that each poll is one sequencer step is the model's choice
(log entry 8). -/
def Obligations.WaitPollsUntilNotBusy : Prop :=
  ∀ (s : State) (rest : List HostOp), stuck s = false → s.program = .wait :: rest →
    (busy s = true → step s = seqStep s) ∧
    (busy s = false →
      step s = .next { s with program := rest, reads := ⟨.status, some (statusWord s)⟩ :: s.reads })

/-- R190: the reset event, in any stage. Of the model's own fields `running`, `readable` and `reads` nothing is said. -/
def Obligations.ResetEventClearsEveryRegister : Prop :=
  ∀ (s : State) (rest : List HostOp), stuck s = false → s.program = .reset :: rest →
    ∃ t, step s = .next t ∧ t = { s with
      program := rest, stage := .idle, fcause := .none, ops := noOperands,
      latches := noLatches, y := noY, h := noH, n := noN, p := noP,
      running := t.running, readable := t.readable, reads := t.reads }

/-- R32: the reset state, at the start of a model run. -/
def Obligations.ResetStateHoldsNoValues : Prop :=
  State.reset.stage = .idle ∧ statusWord State.reset = 0 ∧ (∀ r, (State.reset.ops.get r).isKnown = false) ∧
  State.reset.y.isKnown = false ∧ State.reset.h.isKnown = false ∧ State.reset.n.isKnown = false ∧ State.reset.p.isKnown = false ∧
  (∀ r, (State.reset.latches.get r).isKnown = false) ∧ State.reset.flog = [] ∧ Config.kSeed = 0x3C79AC492BA7B653

/-- R173: an instance with a recorded `UnwrittenOperand` or `BufferOverread` "takes no further step, and its registers keep
their values": nothing of it changes any more, by a host operation or the reset event either (that these are covered is
the model's reading, log entry 9). -/
def Obligations.StuckInstanceTakesNoStep : Prop :=
  ∀ (s : State) (f : ModelFault), f ∈ s.flog →
    ((∃ r, f = .unwrittenOperand r) ∨ ∃ a, f = .bufferOverread a) → step s = .next s ∧ ∀ k, run k s = .next s

/-! ### The whole machine -/

/-- R27, R145: `STAGE` moves only along the sequencer's order, by an issue, by a fault, or by reset. -/
def Obligations.StageMovesOnlyAlongItsRules : Prop :=
  ∀ s t : State, step s = .next t →
    t.stage = s.stage ∨
    (s.stage, t.stage) ∈ [(Stage.sExec, Stage.done), (.sBlock, .sWord), (.sWord, .sTail), (.sTail, .sFinal),
      (.sFinal, .done)] ∨
    (∃ w rest, s.program = .wr .cmd w :: rest ∧ ((busy s = true ∧ t.stage = .fault) ∨
      (s.Issuable ∧ (t.stage = .fault ∨ t.stage = .sExec ∨ t.stage = .sBlock)))) ∨
    (∃ rest, s.program = .reset :: rest ∧ t.stage = .idle)

/-- R175: only reset leaves `FAULT`. -/
def Obligations.OnlyResetLeavesFault : Prop :=
  ∀ s t : State, s.stage = .fault → step s = .next t → (∀ rest, s.program ≠ .reset :: rest) →
    t.stage = .fault ∧ t.fcause = s.fcause ∧ t.y = s.y

/-- R10: no step changes the constants, reset included. -/
def Obligations.NoStepChangesTheConstants : Prop :=
  ∀ s t : State, step s = .next t → t.cfg = s.cfg

/-- R31, R176: no step, not even a reset, removes an entry of `FLOG`. -/
def Obligations.NoStepRemovesAModelFault : Prop :=
  ∀ s t : State, step s = .next t → ∀ f ∈ s.flog, f ∈ t.flog

/-- R40, R20, R21: no step changes the buffer space but a host write of its bytes, and no step changes an operand
register but a host write of it or reset. -/
def Obligations.OnlyTheHostWritesBufferAndOperands : Prop :=
  ∀ s t : State, step s = .next t →
    ((∀ addr bs rest, s.program ≠ .bytes addr bs :: rest) → (∀ addr b rest, s.program ≠ .byte addr b :: rest) →
      t.mem = s.mem) ∧
    (∀ r, (∀ v rest, s.program ≠ .wr (.operand r) v :: rest) → (∀ rest, s.program ≠ .reset :: rest) →
      t.ops.get r = s.ops.get r)

/-- The invariant holds at reset (R9, R32; the free constants are the model's, log entry 3). -/
def Obligations.ResetStateMeetsTheInvariant : Prop := State.reset.Inv

/-- Every step keeps the invariant (R9, R23, R27, R31, R32, R33, R67, R131 to R137, R172, R190). -/
def Obligations.EveryStepKeepsTheInvariant : Prop :=
  ∀ s t : State, s.Inv → step s = .next t → t.Inv

/-- From a state that meets the invariant a step stops only where R40, R41, R49 or R69 bars a host operation: a host write
of buffer bytes, or a change of `R_READABLE` during a command. -/
def Obligations.StepsStopOnlyWhereTheRulesSay : Prop :=
  ∀ s : State, s.Inv →
    (∀ addr bs rest, s.program ≠ .bytes addr bs :: rest) → (∀ addr b rest, s.program ≠ .byte addr b :: rest) →
    (∀ gs rest, s.program ≠ .readable gs :: rest) →
    ∃ t, step s = .next t

/-- R182, R50: a step of one instance changes no register, `STAGE` or `FLOG` of another. In a system with the same buffer
bytes and the same instance, whatever the others are, that instance's step answers and leads to the same instance and
the same bytes; only its write of buffer bytes may be refused there, because the `R_READABLE` of another busy instance
bars it (the model's choice, log entry 15). -/
def Obligations.InstancesDoNotObserveEachOther : Prop :=
  ∀ (k : Nat) (y z : System), System.step k y = .next z →
    (∀ j, j ≠ k → z.blocks[j]? = y.blocks[j]?) ∧ z.blocks.length = y.blocks.length ∧
    ∀ y' : System, y'.mem = y.mem → y'.blocks[k]? = y.blocks[k]? →
      (∀ z', System.step k y' = .next z' → z'.blocks[k]? = z.blocks[k]? ∧ z'.mem = z.mem) ∧
      ((∀ b, y.blocks[k]? = some b → (∀ addr bs rest, b.program ≠ .bytes addr bs :: rest) ∧
          ∀ addr v rest, b.program ≠ .byte addr v :: rest) →
        ∃ z', System.step k y' = .next z') ∧
      (System.step k y' = .refused .bufferWriteWhileBusy ∨ ∃ z', System.step k y' = .next z')
end

