-- ==== Sys2Proof/Laws/Functions.lean ====
section
/-! SUPPORT. The small laws of the pure functions: the rotate against the library's own, the parity of a free constant,
and the reference function's loops. -/

namespace Sys2Proof.Machine

/-- The rotate of R80 is the library's rotate. -/
theorem rotl64_eq_rotateLeft (n : Word) (c : Nat) : rotl64 n c = n.rotateLeft c := by
  show (if c % 64 = 0 then n else n <<< (c % 64) ||| n >>> (64 - c % 64)) = n <<< (c % 64) ||| n >>> (64 - c % 64)
  split
  · rename_i h
    rw [h, BitVec.shiftLeft_zero, BitVec.ushiftRight_eq_zero (by decide), BitVec.or_zero]
  · rfl

/-- The count of `ROTL` is `OPB mod 64` (R63). -/
theorem rotateCount_eq (c : Word) : rotateCount c = c.toNat % 64 := by
  simp [rotateCount, BitVec.extractLsb'_toNat]

/-- Every free constant of a block at reset is odd, whatever its free half is. -/
theorem oddWord_isOdd (u : BitVec 63) : IsOdd (Config.oddWord u) := by
  have h : (Config.oddWord u).getLsbD 0 = true := by simp [Config.oddWord]
  rw [BitVec.getLsbD, Nat.testBit_zero] at h
  simpa using h

theorem powerOn_lawful : Config.powerOn.Lawful :=
  ⟨oddWord_isOdd _, oddWord_isOdd _, oddWord_isOdd _, oddWord_isOdd _, oddWord_isOdd _⟩

/-- The last of `k + 1` blocks. -/
theorem refBlocks_succ (c : Config) (f : Nat → Byte) (p : Nat) (h : Word) (k : Nat) :
    refBlocks c f p h (k + 1) = refBlocks c f (p + 64) (blockMix c f p h) k := rfl

/-- The first of `k + 1` chunks. -/
theorem refWords_succ (c : Config) (f : Nat → Byte) (p : Nat) (h : Word) (k : Nat) :
    refWords c f p h (k + 1) = refWords c f (p + 8) (mixStream c h (readLe f p 8)) k := rfl

end Sys2Proof.Machine
end

