-- ==== Sys2Proof/Laws/State.lean ====
section
/-! SUPPORT. Each field of the state after each named update, by `rfl`, so that no later proof unfolds an update; and the
fields of the reset state. -/

namespace Sys2Proof.Machine

@[simp] theorem recordFault_cfg (f : ModelFault) (s : State) : (recordFault f s).cfg = s.cfg := rfl
@[simp] theorem recordFault_ops (f : ModelFault) (s : State) : (recordFault f s).ops = s.ops := rfl
@[simp] theorem recordFault_y (f : ModelFault) (s : State) : (recordFault f s).y = s.y := rfl
@[simp] theorem recordFault_stage (f : ModelFault) (s : State) : (recordFault f s).stage = s.stage := rfl
@[simp] theorem recordFault_fcause (f : ModelFault) (s : State) : (recordFault f s).fcause = s.fcause := rfl
@[simp] theorem recordFault_latches (f : ModelFault) (s : State) : (recordFault f s).latches = s.latches := rfl
@[simp] theorem recordFault_running (f : ModelFault) (s : State) : (recordFault f s).running = s.running := rfl
@[simp] theorem recordFault_h (f : ModelFault) (s : State) : (recordFault f s).h = s.h := rfl
@[simp] theorem recordFault_n (f : ModelFault) (s : State) : (recordFault f s).n = s.n := rfl
@[simp] theorem recordFault_p (f : ModelFault) (s : State) : (recordFault f s).p = s.p := rfl
@[simp] theorem recordFault_flog (f : ModelFault) (s : State) : (recordFault f s).flog = flogAdd s.flog f := rfl
@[simp] theorem recordFault_mem (f : ModelFault) (s : State) : (recordFault f s).mem = s.mem := rfl
@[simp] theorem recordFault_readable (f : ModelFault) (s : State) : (recordFault f s).readable = s.readable := rfl
@[simp] theorem recordFault_program (f : ModelFault) (s : State) : (recordFault f s).program = s.program := rfl
@[simp] theorem recordFault_reads (f : ModelFault) (s : State) : (recordFault f s).reads = s.reads := rfl

@[simp] theorem raiseFault_cfg (k : FCause) (s : State) : (raiseFault k s).cfg = s.cfg := rfl
@[simp] theorem raiseFault_ops (k : FCause) (s : State) : (raiseFault k s).ops = s.ops := rfl
@[simp] theorem raiseFault_y (k : FCause) (s : State) : (raiseFault k s).y = noY := rfl
@[simp] theorem raiseFault_stage (k : FCause) (s : State) : (raiseFault k s).stage = .fault := rfl
@[simp] theorem raiseFault_fcause (k : FCause) (s : State) : (raiseFault k s).fcause = k := rfl
@[simp] theorem raiseFault_latches (k : FCause) (s : State) : (raiseFault k s).latches = noLatches := rfl
@[simp] theorem raiseFault_running (k : FCause) (s : State) : (raiseFault k s).running = none := rfl
@[simp] theorem raiseFault_h (k : FCause) (s : State) : (raiseFault k s).h = noH := rfl
@[simp] theorem raiseFault_n (k : FCause) (s : State) : (raiseFault k s).n = noN := rfl
@[simp] theorem raiseFault_p (k : FCause) (s : State) : (raiseFault k s).p = noP := rfl
@[simp] theorem raiseFault_flog (k : FCause) (s : State) : (raiseFault k s).flog = s.flog := rfl
@[simp] theorem raiseFault_mem (k : FCause) (s : State) : (raiseFault k s).mem = s.mem := rfl
@[simp] theorem raiseFault_readable (k : FCause) (s : State) : (raiseFault k s).readable = s.readable := rfl
@[simp] theorem raiseFault_program (k : FCause) (s : State) : (raiseFault k s).program = s.program := rfl
@[simp] theorem raiseFault_reads (k : FCause) (s : State) : (raiseFault k s).reads = s.reads := rfl

@[simp] theorem applyReset_cfg (s : State) : (applyReset s).cfg = s.cfg := rfl
@[simp] theorem applyReset_ops (s : State) : (applyReset s).ops = noOperands := rfl
@[simp] theorem applyReset_y (s : State) : (applyReset s).y = noY := rfl
@[simp] theorem applyReset_stage (s : State) : (applyReset s).stage = .idle := rfl
@[simp] theorem applyReset_fcause (s : State) : (applyReset s).fcause = .none := rfl
@[simp] theorem applyReset_latches (s : State) : (applyReset s).latches = noLatches := rfl
@[simp] theorem applyReset_running (s : State) : (applyReset s).running = none := rfl
@[simp] theorem applyReset_h (s : State) : (applyReset s).h = noH := rfl
@[simp] theorem applyReset_n (s : State) : (applyReset s).n = noN := rfl
@[simp] theorem applyReset_p (s : State) : (applyReset s).p = noP := rfl
@[simp] theorem applyReset_flog (s : State) : (applyReset s).flog = s.flog := rfl
@[simp] theorem applyReset_mem (s : State) : (applyReset s).mem = s.mem := rfl
@[simp] theorem applyReset_readable (s : State) : (applyReset s).readable = s.readable := rfl
@[simp] theorem applyReset_program (s : State) : (applyReset s).program = s.program := rfl
@[simp] theorem applyReset_reads (s : State) : (applyReset s).reads = s.reads := rfl

@[simp] theorem startSingle_cfg (i : Instr) (f : OperandFile) (s : State) : (startSingle i f s).cfg = s.cfg := rfl
@[simp] theorem startSingle_ops (i : Instr) (f : OperandFile) (s : State) : (startSingle i f s).ops = s.ops := rfl
@[simp] theorem startSingle_y (i : Instr) (f : OperandFile) (s : State) : (startSingle i f s).y = noY := rfl
@[simp] theorem startSingle_stage (i : Instr) (f : OperandFile) (s : State) : (startSingle i f s).stage = .sExec := rfl
@[simp] theorem startSingle_fcause (i : Instr) (f : OperandFile) (s : State) : (startSingle i f s).fcause = s.fcause := rfl
@[simp] theorem startSingle_latches (i : Instr) (f : OperandFile) (s : State) : (startSingle i f s).latches = f := rfl
@[simp] theorem startSingle_running (i : Instr) (f : OperandFile) (s : State) : (startSingle i f s).running = some i := rfl
@[simp] theorem startSingle_h (i : Instr) (f : OperandFile) (s : State) : (startSingle i f s).h = s.h := rfl
@[simp] theorem startSingle_n (i : Instr) (f : OperandFile) (s : State) : (startSingle i f s).n = s.n := rfl
@[simp] theorem startSingle_p (i : Instr) (f : OperandFile) (s : State) : (startSingle i f s).p = s.p := rfl
@[simp] theorem startSingle_flog (i : Instr) (f : OperandFile) (s : State) : (startSingle i f s).flog = s.flog := rfl
@[simp] theorem startSingle_mem (i : Instr) (f : OperandFile) (s : State) : (startSingle i f s).mem = s.mem := rfl
@[simp] theorem startSingle_readable (i : Instr) (f : OperandFile) (s : State) : (startSingle i f s).readable = s.readable := rfl
@[simp] theorem startSingle_program (i : Instr) (f : OperandFile) (s : State) : (startSingle i f s).program = s.program := rfl
@[simp] theorem startSingle_reads (i : Instr) (f : OperandFile) (s : State) : (startSingle i f s).reads = s.reads := rfl

@[simp] theorem startDriver_cfg (base len seed : Word) (s : State) : (startDriver base len seed s).cfg = s.cfg := rfl
@[simp] theorem startDriver_ops (base len seed : Word) (s : State) : (startDriver base len seed s).ops = s.ops := rfl
@[simp] theorem startDriver_y (base len seed : Word) (s : State) : (startDriver base len seed s).y = noY := rfl
@[simp] theorem startDriver_stage (base len seed : Word) (s : State) : (startDriver base len seed s).stage = .sBlock := rfl
@[simp] theorem startDriver_fcause (base len seed : Word) (s : State) : (startDriver base len seed s).fcause = s.fcause := rfl
@[simp] theorem startDriver_latches (base len seed : Word) (s : State) : (startDriver base len seed s).latches = s.latches := rfl
@[simp] theorem startDriver_running (base len seed : Word) (s : State) : (startDriver base len seed s).running = s.running := rfl
@[simp] theorem startDriver_h (base len seed : Word) (s : State) : (startDriver base len seed s).h = .known (len ^^^ seed) := rfl
@[simp] theorem startDriver_n (base len seed : Word) (s : State) : (startDriver base len seed s).n = .known len := rfl
@[simp] theorem startDriver_p (base len seed : Word) (s : State) : (startDriver base len seed s).p = .known base.toNat := rfl
@[simp] theorem startDriver_flog (base len seed : Word) (s : State) : (startDriver base len seed s).flog = s.flog := rfl
@[simp] theorem startDriver_mem (base len seed : Word) (s : State) : (startDriver base len seed s).mem = s.mem := rfl
@[simp] theorem startDriver_readable (base len seed : Word) (s : State) : (startDriver base len seed s).readable = s.readable := rfl
@[simp] theorem startDriver_program (base len seed : Word) (s : State) : (startDriver base len seed s).program = s.program := rfl
@[simp] theorem startDriver_reads (base len seed : Word) (s : State) : (startDriver base len seed s).reads = s.reads := rfl

@[simp] theorem completeSingle_cfg (v : Word) (s : State) : (completeSingle v s).cfg = s.cfg := rfl
@[simp] theorem completeSingle_ops (v : Word) (s : State) : (completeSingle v s).ops = s.ops := rfl
@[simp] theorem completeSingle_y (v : Word) (s : State) : (completeSingle v s).y = .known v := rfl
@[simp] theorem completeSingle_stage (v : Word) (s : State) : (completeSingle v s).stage = .done := rfl
@[simp] theorem completeSingle_fcause (v : Word) (s : State) : (completeSingle v s).fcause = s.fcause := rfl
@[simp] theorem completeSingle_latches (v : Word) (s : State) : (completeSingle v s).latches = s.latches := rfl
@[simp] theorem completeSingle_running (v : Word) (s : State) : (completeSingle v s).running = none := rfl
@[simp] theorem completeSingle_h (v : Word) (s : State) : (completeSingle v s).h = s.h := rfl
@[simp] theorem completeSingle_n (v : Word) (s : State) : (completeSingle v s).n = s.n := rfl
@[simp] theorem completeSingle_p (v : Word) (s : State) : (completeSingle v s).p = s.p := rfl
@[simp] theorem completeSingle_flog (v : Word) (s : State) : (completeSingle v s).flog = s.flog := rfl
@[simp] theorem completeSingle_mem (v : Word) (s : State) : (completeSingle v s).mem = s.mem := rfl
@[simp] theorem completeSingle_readable (v : Word) (s : State) : (completeSingle v s).readable = s.readable := rfl
@[simp] theorem completeSingle_program (v : Word) (s : State) : (completeSingle v s).program = s.program := rfl
@[simp] theorem completeSingle_reads (v : Word) (s : State) : (completeSingle v s).reads = s.reads := rfl

@[simp] theorem completeDriver_cfg (v : Word) (s : State) : (completeDriver v s).cfg = s.cfg := rfl
@[simp] theorem completeDriver_ops (v : Word) (s : State) : (completeDriver v s).ops = s.ops := rfl
@[simp] theorem completeDriver_y (v : Word) (s : State) : (completeDriver v s).y = .known v := rfl
@[simp] theorem completeDriver_stage (v : Word) (s : State) : (completeDriver v s).stage = .done := rfl
@[simp] theorem completeDriver_fcause (v : Word) (s : State) : (completeDriver v s).fcause = s.fcause := rfl
@[simp] theorem completeDriver_latches (v : Word) (s : State) : (completeDriver v s).latches = s.latches := rfl
@[simp] theorem completeDriver_running (v : Word) (s : State) : (completeDriver v s).running = s.running := rfl
@[simp] theorem completeDriver_h (v : Word) (s : State) : (completeDriver v s).h = noH := rfl
@[simp] theorem completeDriver_n (v : Word) (s : State) : (completeDriver v s).n = noN := rfl
@[simp] theorem completeDriver_p (v : Word) (s : State) : (completeDriver v s).p = noP := rfl
@[simp] theorem completeDriver_flog (v : Word) (s : State) : (completeDriver v s).flog = s.flog := rfl
@[simp] theorem completeDriver_mem (v : Word) (s : State) : (completeDriver v s).mem = s.mem := rfl
@[simp] theorem completeDriver_readable (v : Word) (s : State) : (completeDriver v s).readable = s.readable := rfl
@[simp] theorem completeDriver_program (v : Word) (s : State) : (completeDriver v s).program = s.program := rfl
@[simp] theorem completeDriver_reads (v : Word) (s : State) : (completeDriver v s).reads = s.reads := rfl

@[simp] theorem writeOperand_cfg (r : OpReg) (v : Word) (s : State) : (writeOperand r v s).cfg = s.cfg := rfl
@[simp] theorem writeOperand_ops (r : OpReg) (v : Word) (s : State) : (writeOperand r v s).ops = s.ops.set r v := rfl
@[simp] theorem writeOperand_y (r : OpReg) (v : Word) (s : State) : (writeOperand r v s).y = s.y := rfl
@[simp] theorem writeOperand_stage (r : OpReg) (v : Word) (s : State) : (writeOperand r v s).stage = s.stage := rfl
@[simp] theorem writeOperand_fcause (r : OpReg) (v : Word) (s : State) : (writeOperand r v s).fcause = s.fcause := rfl
@[simp] theorem writeOperand_latches (r : OpReg) (v : Word) (s : State) : (writeOperand r v s).latches = s.latches := rfl
@[simp] theorem writeOperand_running (r : OpReg) (v : Word) (s : State) : (writeOperand r v s).running = s.running := rfl
@[simp] theorem writeOperand_h (r : OpReg) (v : Word) (s : State) : (writeOperand r v s).h = s.h := rfl
@[simp] theorem writeOperand_n (r : OpReg) (v : Word) (s : State) : (writeOperand r v s).n = s.n := rfl
@[simp] theorem writeOperand_p (r : OpReg) (v : Word) (s : State) : (writeOperand r v s).p = s.p := rfl
@[simp] theorem writeOperand_flog (r : OpReg) (v : Word) (s : State) : (writeOperand r v s).flog = s.flog := rfl
@[simp] theorem writeOperand_mem (r : OpReg) (v : Word) (s : State) : (writeOperand r v s).mem = s.mem := rfl
@[simp] theorem writeOperand_readable (r : OpReg) (v : Word) (s : State) : (writeOperand r v s).readable = s.readable := rfl
@[simp] theorem writeOperand_program (r : OpReg) (v : Word) (s : State) : (writeOperand r v s).program = s.program := rfl
@[simp] theorem writeOperand_reads (r : OpReg) (v : Word) (s : State) : (writeOperand r v s).reads = s.reads := rfl

@[simp] theorem noteRead_cfg (r : Reg) (v : Option Word) (s : State) : (noteRead r v s).cfg = s.cfg := rfl
@[simp] theorem noteRead_ops (r : Reg) (v : Option Word) (s : State) : (noteRead r v s).ops = s.ops := rfl
@[simp] theorem noteRead_y (r : Reg) (v : Option Word) (s : State) : (noteRead r v s).y = s.y := rfl
@[simp] theorem noteRead_stage (r : Reg) (v : Option Word) (s : State) : (noteRead r v s).stage = s.stage := rfl
@[simp] theorem noteRead_fcause (r : Reg) (v : Option Word) (s : State) : (noteRead r v s).fcause = s.fcause := rfl
@[simp] theorem noteRead_latches (r : Reg) (v : Option Word) (s : State) : (noteRead r v s).latches = s.latches := rfl
@[simp] theorem noteRead_running (r : Reg) (v : Option Word) (s : State) : (noteRead r v s).running = s.running := rfl
@[simp] theorem noteRead_h (r : Reg) (v : Option Word) (s : State) : (noteRead r v s).h = s.h := rfl
@[simp] theorem noteRead_n (r : Reg) (v : Option Word) (s : State) : (noteRead r v s).n = s.n := rfl
@[simp] theorem noteRead_p (r : Reg) (v : Option Word) (s : State) : (noteRead r v s).p = s.p := rfl
@[simp] theorem noteRead_flog (r : Reg) (v : Option Word) (s : State) : (noteRead r v s).flog = s.flog := rfl
@[simp] theorem noteRead_mem (r : Reg) (v : Option Word) (s : State) : (noteRead r v s).mem = s.mem := rfl
@[simp] theorem noteRead_readable (r : Reg) (v : Option Word) (s : State) : (noteRead r v s).readable = s.readable := rfl
@[simp] theorem noteRead_program (r : Reg) (v : Option Word) (s : State) : (noteRead r v s).program = s.program := rfl
@[simp] theorem noteRead_reads (r : Reg) (v : Option Word) (s : State) : (noteRead r v s).reads = ⟨r, v⟩ :: s.reads := rfl

@[simp] theorem reset_cfg : State.reset.cfg = Config.powerOn := rfl
@[simp] theorem reset_ops : State.reset.ops = noOperands := rfl
@[simp] theorem reset_y : State.reset.y = noY := rfl
@[simp] theorem reset_stage : State.reset.stage = .idle := rfl
@[simp] theorem reset_fcause : State.reset.fcause = .none := rfl
@[simp] theorem reset_latches : State.reset.latches = noLatches := rfl
@[simp] theorem reset_running : State.reset.running = none := rfl
@[simp] theorem reset_h : State.reset.h = noH := rfl
@[simp] theorem reset_n : State.reset.n = noN := rfl
@[simp] theorem reset_p : State.reset.p = noP := rfl
@[simp] theorem reset_flog : State.reset.flog = [] := rfl
@[simp] theorem reset_mem : State.reset.mem = [] := rfl
@[simp] theorem reset_readable : State.reset.readable = [] := rfl
@[simp] theorem reset_program : State.reset.program = [] := rfl
@[simp] theorem reset_reads : State.reset.reads = [] := rfl

/-! ### Register files -/

@[simp] theorem Held.isKnown_known {α : Type} (v : α) : (Held.known v).isKnown = true := rfl
@[simp] theorem Held.isKnown_noValue {α : Type} (b : α) : (Held.noValue b).isKnown = false := rfl
@[simp] theorem Held.toOption_known {α : Type} (v : α) : (Held.known v).toOption = some v := rfl
@[simp] theorem Held.toOption_noValue {α : Type} (b : α) : (Held.noValue b).toOption = none := rfl

/-- A register that holds a value holds one. -/
theorem Held.isKnown_iff {α : Type} {x : Held α} : x.isKnown = true ↔ ∃ v, x = .known v := by
  cases x <;> simp

/-- A register without a value holds unspecified bits. -/
theorem Held.isKnown_eq_false_iff {α : Type} {x : Held α} : x.isKnown = false ↔ ∃ b, x = .noValue b := by
  cases x <;> simp

@[simp] theorem noOperands_isKnown (r : OpReg) : (noOperands.get r).isKnown = false := by cases r <;> rfl
@[simp] theorem noLatches_isKnown (r : OpReg) : (noLatches.get r).isKnown = false := by cases r <;> rfl
@[simp] theorem noY_isKnown : noY.isKnown = false := rfl
@[simp] theorem noH_isKnown : noH.isKnown = false := rfl
@[simp] theorem noN_isKnown : noN.isKnown = false := rfl
@[simp] theorem noP_isKnown : noP.isKnown = false := rfl

@[simp] theorem OperandFile.get_set_same (f : OperandFile) (r : OpReg) (v : Word) : (f.set r v).get r = .known v := by
  cases r <;> rfl

theorem OperandFile.get_set_other (f : OperandFile) {r q : OpReg} (v : Word) (h : q ≠ r) :
    (f.set r v).get q = f.get q := by
  cases r <;> cases q <;> first | rfl | exact absurd rfl h

/-- Two files that agree on every register are the same file. -/
theorem OperandFile.ext_get {f g : OperandFile} (h : ∀ r, f.get r = g.get r) : f = g := by
  have ha := h .opa
  have hb := h .opb
  have hc := h .opc
  have hd := h .opd
  have he := h .ope
  cases f
  cases g
  simp only [OperandFile.get] at ha hb hc hd he
  subst ha hb hc hd he
  rfl

/-! ### The flags -/

@[simp] theorem busy_mk_stage (s : State) : busy s = s.stage.busy := rfl

@[simp] theorem done_iff (s : State) : done s = true ↔ s.stage = .done := by simp [done]

@[simp] theorem faulted_iff (s : State) : faulted s = true ↔ s.stage = .fault := by simp [faulted]

/-- A driver stage is a busy stage. -/
theorem Stage.busy_of_driver {g : Stage} (h : g.driver = true) : g.busy = true := by
  cases g <;> simp_all [Stage.driver, Stage.busy]

/-! ### The fault log -/

@[simp] theorem mem_flogAdd (l : List ModelFault) (f g : ModelFault) : g ∈ flogAdd l f ↔ g ∈ l ∨ g = f := by
  unfold flogAdd
  split
  · rename_i h
    constructor
    · exact Or.inl
    · rintro (h' | rfl)
      · exact h'
      · exact h
  · simp

theorem flogAdd_nodup {l : List ModelFault} (f : ModelFault) (h : l.Nodup) : (flogAdd l f).Nodup := by
  unfold flogAdd
  split
  · exact h
  · rename_i hf
    exact List.nodup_append.mpr ⟨h, List.nodup_singleton f, by
      intro a ha b hb hab
      rw [List.mem_singleton] at hb
      exact hf (hb ▸ hab ▸ ha)⟩

/-- The instance is stuck exactly when `FLOG` holds a model fault that stops it. -/
theorem stuck_iff (s : State) : stuck s = true ↔ ∃ f ∈ s.flog, f.sticks = true := by
  simp [stuck, List.any_eq_true]

end Sys2Proof.Machine
end

