-- ==== Sys2Proof/Laws/Issue.lean ====
section
/-! SUPPORT. What issuing a command can do, said once: the three ways past the first checks, the operands read, and one
description of `exec` over all twelve commands. -/

namespace Sys2Proof.Machine

theorem issueGate_busy {accept : State → State} {s : State} (h : s.stage.busy = true) :
    issueGate accept s = .next (raiseFault .busyIssue s) := by
  simp [issueGate, h]

theorem issueGate_fault {accept : State → State} {s : State} (h : s.stage = .fault) :
    issueGate accept s = .next s := by
  simp [issueGate, faulted, h, Stage.busy]

theorem issueGate_issuable {accept : State → State} {s : State} (h : s.stage = .idle ∨ s.stage = .done) :
    issueGate accept s = .next (accept s) := by
  rcases h with h | h <;> simp [issueGate, faulted, h, Stage.busy]

/-- A stage is busy, or `FAULT`, or one in which a command may be issued. -/
theorem stage_cases (s : State) : s.stage.busy = true ∨ s.stage = .fault ∨ (s.stage = .idle ∨ s.stage = .done) := by
  cases s.stage <;> simp [Stage.busy]

/-! ### Operands -/

theorem need_some {s : State} {r : OpReg} {v : Word} (h : s.ops.get r = .known v) : need s r = .ok v := by
  simp [need, h]

theorem need_none {s : State} {r : OpReg} (h : (s.ops.get r).isKnown = false) : need s r = .error r := by
  obtain ⟨b, h⟩ := Held.isKnown_eq_false_iff.mp h
  simp [need, h]

theorem latched_some {s : State} {r : OpReg} {v : Word} (h : s.latches.get r = .known v) : latched s r = .ok v := by
  simp [latched, h]

/-- What a completed latching says: every listed register held a value, its latch holds that value, and no
other latch changed. -/
theorem latchOperands_ok {s : State} {rs : List OpReg} {f g : OperandFile} (h : latchOperands s rs f = .ok g) :
    (∀ r ∈ rs, (s.ops.get r).isKnown = true ∧ g.get r = s.ops.get r) ∧ ∀ r, r ∉ rs → g.get r = f.get r := by
  induction rs generalizing f with
  | nil =>
    simp only [latchOperands, Except.ok.injEq] at h
    subst h
    exact ⟨by simp, fun _ _ => rfl⟩
  | cons q rs ih =>
    unfold latchOperands at h
    split at h
    · rename_i v hv
      obtain ⟨h1, h2⟩ := ih h
      refine ⟨fun r hr => ?_, fun r hr => ?_⟩
      · by_cases hrs : r ∈ rs
        · exact h1 r hrs
        · have hrq : r = q := by simpa [hrs] using hr
          subst hrq
          exact ⟨by simp [hv], by rw [h2 r hrs, OperandFile.get_set_same, hv]⟩
      · simp only [List.mem_cons, not_or] at hr
        rw [h2 r hr.2, OperandFile.get_set_other _ _ hr.1]
    · exact absurd h (by simp)

/-- Latching completes when every listed register holds a value. -/
theorem latchOperands_total {s : State} {rs : List OpReg} (f : OperandFile)
    (h : ∀ r ∈ rs, (s.ops.get r).isKnown = true) : ∃ g, latchOperands s rs f = .ok g := by
  induction rs generalizing f with
  | nil => exact ⟨f, rfl⟩
  | cons q rs ih =>
    obtain ⟨v, hv⟩ := Held.isKnown_iff.mp (h q (List.mem_cons_self ..))
    obtain ⟨g, hg⟩ := ih (f.set q v) (fun r hr => h r (List.mem_cons_of_mem _ hr))
    exact ⟨g, by simp [latchOperands, hv, hg]⟩

/-- Latching answers the first listed register without a value. -/
theorem latchOperands_error {s : State} {rs qs : List OpReg} {r : OpReg} (f : OperandFile)
    (hpre : ∀ q ∈ rs, (s.ops.get q).isKnown = true) (hr : (s.ops.get r).isKnown = false) :
    latchOperands s (rs ++ r :: qs) f = .error r := by
  induction rs generalizing f with
  | nil =>
    obtain ⟨b, hr⟩ := Held.isKnown_eq_false_iff.mp hr
    simp [latchOperands, hr]
  | cons q rs ih =>
    obtain ⟨v, hv⟩ := Held.isKnown_iff.mp (hpre q (List.mem_cons_self ..))
    simp only [List.cons_append, latchOperands, hv]
    exact ih _ (fun x hx => hpre x (List.mem_cons_of_mem _ hx))

/-! ### The commands -/

/-- The start of a command in `IDLE` or `DONE`: the state it starts in, or the first operand register without a
value. -/
def commandStart (i : Instr) (s : State) : Except OpReg State :=
  match i with
  | .hashi => do pure (startDriver (← need s .opa) (← need s .opb) (← need s .opc) s)
  | .hash => do pure (startDriver (← need s .opa) (← need s .opb) Config.kSeed s)
  | .hashs => do pure (startDriver (← need s .opa) (← need s .opb) (premix (← need s .opc)) s)
  | i => (latchOperands s (operandsRead i) s.latches).map (startSingle i · s)

/-- Every command is issued through the same first checks and the same end of an issue. -/
theorem exec_eq_gate (i : Instr) (s : State) :
    exec i s = issueGate (fun s => startOrRecord s (commandStart i s)) s := by
  cases i <;> rfl

/-- Issuing never stops the machine: it always answers a next state. -/
theorem exec_next (i : Instr) (s : State) : ∃ t, exec i s = .next t := by
  rw [exec_eq_gate]
  rcases stage_cases s with h | h | h
  · exact ⟨_, issueGate_busy h⟩
  · exact ⟨_, issueGate_fault h⟩
  · exact ⟨_, issueGate_issuable h⟩

/-- What the start of a command can be: a driver command's initialisation, a single-step command's latching, or
the record of a register without a value. -/
theorem commandStart_cases (i : Instr) (s : State) :
    (∃ r, commandStart i s = .error r ∧ r ∈ operandsRead i ∧ (s.ops.get r).isKnown = false) ∨
      (∃ base len seed, commandStart i s = .ok (startDriver base len seed s)) ∨
      (∃ f, commandStart i s = .ok (startSingle i f s) ∧ i ≠ .hashi ∧ i ≠ .hash ∧ i ≠ .hashs ∧
        ∀ r ∈ operandsRead i, (f.get r).isKnown = true) := by
  have single : ∀ {j : Instr}, j ≠ .hashi → j ≠ .hash → j ≠ .hashs →
      commandStart j s = (latchOperands s (operandsRead j) s.latches).map (startSingle j · s) →
      (∃ r, commandStart j s = .error r ∧ r ∈ operandsRead j ∧ (s.ops.get r).isKnown = false) ∨
      (∃ base len seed, commandStart j s = .ok (startDriver base len seed s)) ∨
      (∃ f, commandStart j s = .ok (startSingle j f s) ∧ j ≠ .hashi ∧ j ≠ .hash ∧ j ≠ .hashs ∧
        ∀ r ∈ operandsRead j, (f.get r).isKnown = true) := by
    intro j h1 h2 h3 hj
    have err : ∀ (rs : List OpReg) (f : OperandFile) (r : OpReg), latchOperands s rs f = .error r →
        r ∈ rs ∧ (s.ops.get r).isKnown = false := by
      intro rs
      induction rs with
      | nil => intro f r h; exact absurd h (by simp [latchOperands])
      | cons q rs ih =>
        intro f r h
        unfold latchOperands at h
        split at h
        · exact ⟨List.mem_cons_of_mem _ (ih _ _ h).1, (ih _ _ h).2⟩
        · rename_i hq
          have := Except.error.inj h
          subst this
          exact ⟨List.mem_cons_self .., by rw [hq]; rfl⟩
    rw [hj]
    cases hl : latchOperands s (operandsRead j) s.latches with
    | error r => exact .inl ⟨r, rfl, err _ _ _ hl⟩
    | ok f =>
      refine .inr (.inr ⟨f, rfl, h1, h2, h3, fun r hr => ?_⟩)
      have := (latchOperands_ok hl).1 r hr
      rw [this.2]
      exact this.1
  cases i
  case hashi =>
    cases ha : s.ops.get .opa with
    | noValue bits => exact .inl ⟨.opa, by simp [commandStart, need, ha]; rfl, by simp [operandsRead], by rw [ha]; rfl⟩
    | known a =>
      cases hb : s.ops.get .opb with
      | noValue bits => exact .inl ⟨.opb, by simp [commandStart, need, ha, hb]; rfl, by simp [operandsRead], by rw [hb]; rfl⟩
      | known b =>
        cases hc : s.ops.get .opc with
        | noValue bits => exact .inl ⟨.opc, by simp [commandStart, need, ha, hb, hc]; rfl, by simp [operandsRead], by rw [hc]; rfl⟩
        | known c => exact .inr (.inl ⟨a, b, c, by simp [commandStart, need, ha, hb, hc]; rfl⟩)
  case hash =>
    cases ha : s.ops.get .opa with
    | noValue bits => exact .inl ⟨.opa, by simp [commandStart, need, ha]; rfl, by simp [operandsRead], by rw [ha]; rfl⟩
    | known a =>
      cases hb : s.ops.get .opb with
      | noValue bits => exact .inl ⟨.opb, by simp [commandStart, need, ha, hb]; rfl, by simp [operandsRead], by rw [hb]; rfl⟩
      | known b => exact .inr (.inl ⟨a, b, Config.kSeed, by simp [commandStart, need, ha, hb]; rfl⟩)
  case hashs =>
    cases ha : s.ops.get .opa with
    | noValue bits => exact .inl ⟨.opa, by simp [commandStart, need, ha]; rfl, by simp [operandsRead], by rw [ha]; rfl⟩
    | known a =>
      cases hb : s.ops.get .opb with
      | noValue bits => exact .inl ⟨.opb, by simp [commandStart, need, ha, hb]; rfl, by simp [operandsRead], by rw [hb]; rfl⟩
      | known b =>
        cases hc : s.ops.get .opc with
        | noValue bits => exact .inl ⟨.opc, by simp [commandStart, need, ha, hb, hc]; rfl, by simp [operandsRead], by rw [hc]; rfl⟩
        | known c => exact .inr (.inl ⟨a, b, premix c, by simp [commandStart, need, ha, hb, hc]; rfl⟩)
  all_goals exact single (by simp) (by simp) (by simp) rfl

/-- Everything an issue can do, over all commands: the busy fault, no effect in `FAULT`, the record of a
register without a value, or a command's start. -/
theorem exec_cases {i : Instr} {s t : State} (h : exec i s = .next t) :
    (s.stage.busy = true ∧ t = raiseFault .busyIssue s) ∨
      (s.stage = .fault ∧ t = s) ∨
      ((s.stage = .idle ∨ s.stage = .done) ∧
        ((∃ r, r ∈ operandsRead i ∧ (s.ops.get r).isKnown = false ∧ t = recordFault (.unwrittenOperand r) s) ∨
          (∃ base len seed, t = startDriver base len seed s) ∨
          (∃ f, t = startSingle i f s ∧ i ≠ .hashi ∧ i ≠ .hash ∧ i ≠ .hashs ∧
            ∀ r ∈ operandsRead i, (f.get r).isKnown = true))) := by
  rw [exec_eq_gate] at h
  rcases stage_cases s with hs | hs | hs
  · rw [issueGate_busy hs] at h
    exact .inl ⟨hs, (Host.Outcome.next.inj h).symm⟩
  · rw [issueGate_fault hs] at h
    exact .inr (.inl ⟨hs, (Host.Outcome.next.inj h).symm⟩)
  · rw [issueGate_issuable hs] at h
    have ht := (Host.Outcome.next.inj h).symm
    refine .inr (.inr ⟨hs, ?_⟩)
    rcases commandStart_cases i s with ⟨r, he, hr, hn⟩ | ⟨a, b, c, he⟩ | ⟨f, he, h1, h2, h3, hf⟩
    · exact .inl ⟨r, hr, hn, by rw [ht, he]; rfl⟩
    · exact .inr (.inl ⟨a, b, c, by rw [ht, he]; rfl⟩)
    · exact .inr (.inr ⟨f, by rw [ht, he]; rfl, h1, h2, h3, hf⟩)

end Sys2Proof.Machine
end

