-- ==== Sys2Proof/Laws/Reads.lean ====
section
/-! SUPPORT. The laws of the read primitive: when a read is admitted, which address it reports when it is not, what the
value's bits are, and what parts of the state it depends on. -/

namespace Sys2Proof.Machine

theorem readableByte_congr {s t : State} (hc : t.cfg = s.cfg) (hr : t.readable = s.readable) (a : Nat) :
    readableByte t a = readableByte s a := by
  simp [readableByte, inSpace, inReadable, hc, hr]

theorem byteAt_congr {s t : State} (hm : t.mem = s.mem) : byteAt t = byteAt s := by
  funext a
  simp [byteAt, hm]

/-- The admission of a read depends only on the parameters and `R_READABLE`. -/
theorem firstUnreadable_congr {s t : State} (hc : t.cfg = s.cfg) (hr : t.readable = s.readable) (a n : Nat) :
    firstUnreadable t a n = firstUnreadable s a n := by
  induction n generalizing a with
  | zero => rfl
  | succ n ih => simp [firstUnreadable, readableByte_congr hc hr, ih]

/-- A read is admitted exactly when every one of its bytes is readable. -/
theorem firstUnreadable_eq_none (s : State) (a n : Nat) :
    firstUnreadable s a n = none ↔ ∀ k, k < n → readableByte s (a + k) = true := by
  induction n generalizing a with
  | zero => simp [firstUnreadable]
  | succ n ih =>
    unfold firstUnreadable
    split
    · rename_i h
      rw [ih]
      constructor
      · intro hk k hkn
        cases k with
        | zero => exact h
        | succ k => simpa [Nat.add_assoc, Nat.add_comm 1 k] using hk k (by omega)
      · intro hk k hkn
        simpa [Nat.add_assoc, Nat.add_comm 1 k] using hk (k + 1) (by omega)
    · rename_i h
      simp only [reduceCtorEq, false_iff]
      exact fun hk => h (hk 0 (by omega))

/-- The address reported is the lowest of the read's addresses that is not readable. -/
theorem firstUnreadable_eq_some (s : State) (a n x : Nat) :
    firstUnreadable s a n = some x ↔
      a ≤ x ∧ x < a + n ∧ readableByte s x = false ∧ ∀ z, a ≤ z → z < x → readableByte s z = true := by
  induction n generalizing a with
  | zero =>
    simp only [firstUnreadable, reduceCtorEq, false_iff]
    omega
  | succ n ih =>
    unfold firstUnreadable
    split
    · rename_i h
      rw [ih]
      constructor
      · rintro ⟨h1, h2, h3, h4⟩
        refine ⟨by omega, by omega, h3, fun z hz hzx => ?_⟩
        by_cases hza : z = a
        · exact hza ▸ h
        · exact h4 z (by omega) hzx
      · rintro ⟨h1, h2, h3, h4⟩
        have hxa : x ≠ a := by
          rintro rfl
          rw [h] at h3
          exact absurd h3 (by decide)
        exact ⟨by omega, by omega, h3, fun z hz hzx => h4 z (by omega) hzx⟩
    · rename_i h
      constructor
      · intro hx
        have hx := Option.some.inj hx
        subst hx
        exact ⟨by omega, by omega, by simpa using h, fun z hz hzx => absurd hzx (by omega)⟩
      · rintro ⟨h1, h2, h3, h4⟩
        by_cases hxa : x = a
        · rw [hxa]
        · exact absurd (h4 a (by omega) (by omega)) h

/-- The two outcomes of a checked read. -/
theorem checkedRead_cases (s : State) (a n : Nat) (v : Word) :
    (checkedRead s a n v = .ok v ∧ firstUnreadable s a n = none) ∨
      ∃ x, checkedRead s a n v = .error x ∧ firstUnreadable s a n = some x := by
  unfold checkedRead
  cases firstUnreadable s a n with
  | none => exact .inl ⟨rfl, rfl⟩
  | some x => exact .inr ⟨x, rfl, rfl⟩

theorem checkedRead_ok {s : State} {a n : Nat} (v : Word) (h : ∀ k, k < n → readableByte s (a + k) = true) :
    checkedRead s a n v = .ok v := by
  simp [checkedRead, (firstUnreadable_eq_none s a n).mpr h]

theorem checkedRead_error {s : State} {a n x : Nat} (v : Word) (h : firstUnreadable s a n = some x) :
    checkedRead s a n v = .error x := by
  simp [checkedRead, h]

/-- A read whose lowest unreadable byte lies at offset `k` answers that byte's address. -/
theorem checkedRead_lowest {s : State} {a n k : Nat} (v : Word) (hk : k < n)
    (hr : ∀ j, j < k → readableByte s (a + j) = true) (hx : readableByte s (a + k) = false) :
    checkedRead s a n v = .error (a + k) := by
  refine checkedRead_error v ((firstUnreadable_eq_some s _ _ _).mpr ⟨by omega, by omega, hx, fun z h1 h2 => ?_⟩)
  have := hr (z - a) (by omega)
  rwa [show a + (z - a) = z by omega] at this

/-- A read of readable bytes gives their little-endian value. -/
theorem memRead_ok {s : State} {a n : Nat} (h : ∀ k, k < n → readableByte s (a + k) = true) :
    memRead s a n = .ok (readLe (byteAt s) a n) := checkedRead_ok _ h

/-- What a completed read says: every byte was readable, and the value is theirs. -/
theorem memRead_eq_ok {s : State} {a n : Nat} {v : Word} (h : memRead s a n = .ok v) :
    (∀ k, k < n → readableByte s (a + k) = true) ∧ v = readLe (byteAt s) a n := by
  rcases checkedRead_cases s a n (readLe (byteAt s) a n) with ⟨h1, h2⟩ | ⟨x, h1, -⟩
  · refine ⟨(firstUnreadable_eq_none s a n).mp h2, ?_⟩
    have := h.symm.trans h1
    exact Except.ok.inj this
  · have := h.symm.trans h1
    exact absurd this (by simp)

/-- The value depends only on the bytes read. -/
theorem readLe_congr {f g : Nat → Byte} {a n : Nat} (h : ∀ k, k < n → f (a + k) = g (a + k)) :
    readLe f a n = readLe g a n := by
  induction n with
  | zero => rfl
  | succ n ih => simp [readLe, ih (fun k hk => h k (by omega)), h n (by omega)]

/-- Bit `i` of a read of `n` bytes is bit `i mod 8` of byte `i / 8`, and zero from bit `8 n` on. -/
theorem getLsbD_readLe (f : Nat → Byte) (a n i : Nat) :
    (readLe f a n).getLsbD i = (decide (i < 64) && decide (i < 8 * n) && (f (a + i / 8)).getLsbD (i % 8)) := by
  induction n with
  | zero => simp [readLe]
  | succ n ih =>
    simp only [readLe, BitVec.getLsbD_or, ih, BitVec.getLsbD_shiftLeft, BitVec.getLsbD_setWidth]
    by_cases h64 : i < 64
    · by_cases h1 : i < 8 * n
      · simp [h64, h1, show i < 8 * (n + 1) by omega]
      · by_cases h2 : i < 8 * (n + 1)
        · have hq : i / 8 = n := by omega
          have hr : i % 8 = i - 8 * n := by omega
          simp [h64, h1, h2, hq, hr, show i - 8 * n < 64 by omega]
        · have : (f (a + n)).getLsbD (i - 8 * n) = false := BitVec.getLsbD_of_ge _ _ (by omega)
          simp [h1, h2, this]
    · simp [h64]

/-- The read as one fold over the byte offsets. -/
theorem readLe_eq_foldl (f : Nat → Byte) (a n : Nat) :
    readLe f a n = (List.range n).foldl (fun v k => v ||| zext64 (f (a + k)) <<< (8 * k)) 0 := by
  induction n with
  | zero => rfl
  | succ n ih =>
    rw [List.range_succ, List.foldl_append, ← ih]
    rfl

/-- A read of `m + n` bytes is the read of the first `m` with the read of the next `n` above it. -/
theorem readLe_append (f : Nat → Byte) (a m n : Nat) :
    readLe f a (m + n) = readLe f a m ||| readLe f (a + m) n <<< (8 * m) := by
  induction n with
  | zero => simp [readLe]
  | succ n ih =>
    rw [← Nat.add_assoc, readLe, ih, readLe, BitVec.shiftLeft_or_distrib, BitVec.or_assoc, ← BitVec.shiftLeft_add,
      Nat.add_assoc, Nat.mul_add, Nat.add_comm (8 * m)]

end Sys2Proof.Machine
end

