-- ==== Sys2Proof/Laws/Step.lean ====
section
/-! SUPPORT. What a step can do, said once: the ways a step goes, everything a sequencer step can answer, and when it
answers a next state. -/

namespace Sys2Proof.Machine

/-! ### Which event a step is -/

/-- A stuck instance stays as it is (R173). -/
theorem step_stuck {s : State} (h : stuck s = true) : step s = .next s := by
  simp [step, h]

theorem step_eq_event {s : State} (h : stuck s = false) : step s = nextEvent s := by
  simp [step, h]

/-- With no host operation left, a step is the sequencer's. -/
theorem step_sequencer {s : State} (h : stuck s = false) (hp : s.program = []) : step s = seqStep s := by
  rw [step_eq_event h, nextEvent, hp]

/-- Otherwise a step is the host's next operation. -/
theorem step_host {s : State} {op : HostOp} {rest : List HostOp} (h : stuck s = false)
    (hp : s.program = op :: rest) : step s = hostStep op { s with program := rest } := by
  rw [step_eq_event h, nextEvent, hp]

/-- A step that answers a next state: a stuck instance stays, the sequencer's step, or the host's next operation. -/
theorem step_cases {s t : State} (h : step s = .next t) :
    (stuck s = true ∧ t = s) ∨ (s.program = [] ∧ seqStep s = .next t) ∨
      ∃ op rest, s.program = op :: rest ∧ hostStep op { s with program := rest } = .next t := by
  cases hs : stuck s with
  | true => exact .inl ⟨rfl, (Host.Outcome.next.inj (step_stuck hs ▸ h)).symm⟩
  | false =>
    cases hp : s.program with
    | nil => exact .inr (.inl ⟨rfl, step_sequencer hs hp ▸ h⟩)
    | cons op rest => exact .inr (.inr ⟨op, rest, rfl, step_host hs hp ▸ h⟩)

/-! ### The sequencer -/

/-- A single-step command's result, when every operand it reads is latched: a value or an overread. -/
theorem singleResult_latched {i : Instr} {s : State} (h1 : i ≠ .hashi) (h2 : i ≠ .hash) (h3 : i ≠ .hashs)
    (hl : ∀ r ∈ operandsRead i, (s.latches.get r).isKnown = true) :
    (∃ v, singleResult i s = .ok v) ∨ ∃ a, singleResult i s = .error (.overread a) := by
  have reader : ∀ n, (s.latches.get .opa).isKnown = true → (s.latches.get .opb).isKnown = true →
      (∃ v, readerResult n s = .ok v) ∨ ∃ a, readerResult n s = .error (.overread a) := by
    intro n ha hb
    obtain ⟨a, ha⟩ := Held.isKnown_iff.mp ha
    obtain ⟨b, hb⟩ := Held.isKnown_iff.mp hb
    unfold readerResult
    rw [latched_some ha, latched_some hb]
    cases hm : memRead s (readerAddress a b) n with
    | ok v => exact .inl ⟨v, by show (match memRead s (readerAddress a b) n with | .ok v => _ | .error a => _) = _; rw [hm]; rfl⟩
    | error x => exact .inr ⟨x, by show (match memRead s (readerAddress a b) n with | .ok v => _ | .error a => _) = _; rw [hm]; rfl⟩
  have val : ∀ r ∈ operandsRead i, ∃ v, latched s r = .ok v := by
    intro r hr
    obtain ⟨v, hv⟩ := Held.isKnown_iff.mp (hl r hr)
    exact ⟨v, latched_some hv⟩
  cases i
  case hashi => exact absurd rfl h1
  case hash => exact absurd rfl h2
  case hashs => exact absurd rfl h3
  case rd8 => exact reader 1 (hl _ (by simp [operandsRead])) (hl _ (by simp [operandsRead]))
  case rd16 => exact reader 2 (hl _ (by simp [operandsRead])) (hl _ (by simp [operandsRead]))
  case rd32 => exact reader 4 (hl _ (by simp [operandsRead])) (hl _ (by simp [operandsRead]))
  case rd64 => exact reader 8 (hl _ (by simp [operandsRead])) (hl _ (by simp [operandsRead]))
  case rotl =>
    obtain ⟨a, ha⟩ := val .opa (by simp [operandsRead])
    obtain ⟨b, hb⟩ := val .opb (by simp [operandsRead])
    exact .inl ⟨_, by unfold singleResult resultRotl; rw [ha, hb]; rfl⟩
  case mix =>
    obtain ⟨a, ha⟩ := val .opa (by simp [operandsRead])
    exact .inl ⟨_, by unfold singleResult resultMix; rw [ha]; rfl⟩
  case premix =>
    obtain ⟨a, ha⟩ := val .opa (by simp [operandsRead])
    exact .inl ⟨_, by unfold singleResult resultPremix; rw [ha]; rfl⟩
  case mixs =>
    obtain ⟨a, ha⟩ := val .opa (by simp [operandsRead])
    obtain ⟨b, hb⟩ := val .opb (by simp [operandsRead])
    exact .inl ⟨_, by unfold singleResult resultMixs; rw [ha, hb]; rfl⟩
  case mixb =>
    obtain ⟨a, ha⟩ := val .opa (by simp [operandsRead])
    obtain ⟨b, hb⟩ := val .opb (by simp [operandsRead])
    obtain ⟨c, hc⟩ := val .opc (by simp [operandsRead])
    obtain ⟨d, hd⟩ := val .opd (by simp [operandsRead])
    obtain ⟨e, he⟩ := val .ope (by simp [operandsRead])
    exact .inl ⟨_, by unfold singleResult resultMixb; rw [ha, hb, hc, hd, he]; rfl⟩

theorem driverStep_some {f : Word → Word → Nat → State → Out} {s : State} {h n : Word} {p : Nat}
    (hh : s.h = .known h) (hn : s.n = .known n) (hp : s.p = .known p) : driverStep f s = f h n p s := by
  simp [driverStep, hh, hn, hp]

/-- A driver stage answers only when `H`, `N` and `P` hold values. -/
theorem driverStep_next {f : Word → Word → Nat → State → Out} {s t : State} (h : driverStep f s = .next t) :
    ∃ a n p, s.h = .known a ∧ s.n = .known n ∧ s.p = .known p ∧ f a n p s = .next t := by
  unfold driverStep at h
  split at h
  · rename_i a n p ha hn hp
    exact ⟨a, n, p, ha, hn, hp, h⟩
  · exact absurd h (by simp)

/-- Everything a sequencer step can answer: the block waits, an overread is recorded, a single-step command
completes, or a driver stage takes its step. -/
theorem seqStep_cases {s t : State} (hst : seqStep s = .next t) :
    (s.stage.busy = false ∧ t = s) ∨
    (s.stage.busy = true ∧ ∃ a, readableByte s a = false ∧ t = recordFault (.bufferOverread a) s) ∨
    (s.stage = .sExec ∧ ∃ i v, s.running = some i ∧ singleResult i s = .ok v ∧ t = completeSingle v s) ∨
    ∃ h n p, s.h = .known h ∧ s.n = .known n ∧ s.p = .known p ∧
      ((s.stage = .sBlock ∧ 64 ≤ n.toNat ∧ (∀ k, k < 64 → readableByte s (p + k) = true) ∧
          t = { s with h := .known (blockMix s.cfg (byteAt s) p h), p := .known (p + 64), n := .known (n - 64) }) ∨
        (s.stage = .sBlock ∧ n.toNat < 64 ∧ t = { s with stage := .sWord }) ∨
        (s.stage = .sWord ∧ 8 ≤ n.toNat ∧ (∀ k, k < 8 → readableByte s (p + k) = true) ∧
          t = { s with
            h := .known (mixStream s.cfg h (readLe (byteAt s) p 8)), p := .known (p + 8), n := .known (n - 8) }) ∨
        (s.stage = .sWord ∧ n.toNat < 8 ∧ t = { s with stage := .sTail }) ∨
        (s.stage = .sTail ∧ n.toNat = 0 ∧ t = { s with n := .known 0, stage := .sFinal }) ∨
        (s.stage = .sTail ∧ n.toNat ≠ 0 ∧ n.toNat < 8 ∧ (∀ k, k < n.toNat → readableByte s (p + k) = true) ∧
          t = { s with
            h := .known (mixStream s.cfg h (tailValue (byteAt s) p n.toNat)), n := .known 0, stage := .sFinal }) ∨
        (s.stage = .sFinal ∧ t = completeDriver (mix s.cfg h) s)) := by
  have hover : ∀ {a n x : Nat}, firstUnreadable s a n = some x → readableByte s x = false :=
    fun hx => ((firstUnreadable_eq_some s _ _ _).mp hx).2.2.1
  unfold seqStep at hst
  cases hs : s.stage <;> rw [hs] at hst <;> simp only at hst
  case idle | done | fault => exact .inl ⟨rfl, (Host.Outcome.next.inj hst).symm⟩
  case sExec =>
    unfold execStep at hst
    split at hst
    · exact absurd hst (by simp)
    · rename_i i hi
      split at hst
      · rename_i v hv
        exact .inr (.inr (.inl ⟨rfl, i, v, hi, hv, (Host.Outcome.next.inj hst).symm⟩))
      · rename_i a ha
        refine .inr (.inl ⟨rfl, a, ?_, (Host.Outcome.next.inj hst).symm⟩)
        have reader : ∀ n, readerResult n s = .error (.overread a) → readableByte s a = false := by
          intro n hr
          unfold readerResult at hr
          unfold latched at hr
          cases h1 : s.latches.get .opa with
          | noValue bits => rw [h1] at hr; exact absurd hr (by intro h; cases h)
          | known b =>
            cases h2 : s.latches.get .opb with
            | noValue bits => rw [h1, h2] at hr; exact absurd hr (by intro h; cases h)
            | known o =>
              rw [h1, h2] at hr
              rcases checkedRead_cases s (readerAddress b o) n (readLe (byteAt s) (readerAddress b o) n) with
                ⟨hm, -⟩ | ⟨x, hm, hx⟩
              · have hm : memRead s (readerAddress b o) n = _ := hm
                simp only [bind, Except.bind, hm] at hr
                exact absurd hr (by intro h; cases h)
              · have hm : memRead s (readerAddress b o) n = _ := hm
                simp only [bind, Except.bind, hm] at hr
                cases hr
                exact hover hx
        have quiet : ∀ {r : OpReg} {k : Word → Except NoResult Word}, (∀ v, k v ≠ .error (.overread a)) →
            (latched s r >>= k) ≠ .error (.overread a) := by
          intro r k hk
          unfold latched
          cases s.latches.get r with
          | noValue bits => intro h; cases h
          | known v => exact hk v
        have pureQuiet : ∀ v : Word, (pure v : Except NoResult Word) ≠ .error (.overread a) := by
          intro v h
          cases h
        cases i
        case rd8 => exact reader 1 ha
        case rd16 => exact reader 2 ha
        case rd32 => exact reader 4 ha
        case rd64 => exact reader 8 ha
        case rotl => exact absurd ha (quiet fun _ => quiet fun _ => pureQuiet _)
        case mix => exact absurd ha (quiet fun _ => pureQuiet _)
        case mixs => exact absurd ha (quiet fun _ => quiet fun _ => pureQuiet _)
        case mixb =>
          exact absurd ha (quiet fun _ => quiet fun _ => quiet fun _ => quiet fun _ => quiet fun _ => pureQuiet _)
        case premix => exact absurd ha (quiet fun _ => pureQuiet _)
        all_goals exact absurd ha (by intro h; cases h)
      · exact absurd hst (by simp)
  all_goals
    obtain ⟨h, n, p, hh, hn, hp, hf⟩ := driverStep_next hst
  case sBlock =>
    unfold blockStep at hf
    split at hf
    · rename_i hge
      have ht := (Host.Outcome.next.inj hf).symm
      rcases checkedRead_cases s p 64 (blockMix s.cfg (byteAt s) p h) with ⟨hc, hr⟩ | ⟨x, hc, hx⟩
      · rw [hc] at ht
        exact .inr (.inr (.inr ⟨h, n, p, hh, hn, hp, .inl ⟨rfl, hge, (firstUnreadable_eq_none s p 64).mp hr, by rw [ht]; simp only [readOrRecord, hs]⟩⟩))
      · rw [hc] at ht
        exact .inr (.inl ⟨rfl, x, hover hx, ht⟩)
    · exact .inr (.inr (.inr ⟨h, n, p, hh, hn, hp,
        .inr (.inl ⟨rfl, by omega, (Host.Outcome.next.inj hf).symm⟩)⟩))
  case sWord =>
    unfold wordStep at hf
    split at hf
    · rename_i hge
      have ht := (Host.Outcome.next.inj hf).symm
      unfold memRead at ht
      rcases checkedRead_cases s p 8 (readLe (byteAt s) p 8) with ⟨hc, hr⟩ | ⟨x, hc, hx⟩
      · rw [hc] at ht
        exact .inr (.inr (.inr ⟨h, n, p, hh, hn, hp,
          .inr (.inr (.inl ⟨rfl, hge, (firstUnreadable_eq_none s p 8).mp hr, by rw [ht]; simp only [readOrRecord, hs]⟩))⟩))
      · rw [hc] at ht
        exact .inr (.inl ⟨rfl, x, hover hx, ht⟩)
    · exact .inr (.inr (.inr ⟨h, n, p, hh, hn, hp,
        .inr (.inr (.inr (.inl ⟨rfl, by omega, (Host.Outcome.next.inj hf).symm⟩)))⟩))
  case sTail =>
    unfold tailStep at hf
    split at hf
    · rename_i h0
      exact .inr (.inr (.inr ⟨h, n, p, hh, hn, hp,
        .inr (.inr (.inr (.inr (.inl ⟨rfl, h0, (Host.Outcome.next.inj hf).symm⟩))))⟩))
    · rename_i h0
      split at hf
      · rename_i hlt
        have ht := (Host.Outcome.next.inj hf).symm
        rcases checkedRead_cases s p n.toNat (tailValue (byteAt s) p n.toNat) with ⟨hc, hr⟩ | ⟨x, hc, hx⟩
        · rw [hc] at ht
          exact .inr (.inr (.inr ⟨h, n, p, hh, hn, hp, .inr (.inr (.inr (.inr (.inr (.inl
            ⟨rfl, h0, hlt, (firstUnreadable_eq_none s p n.toNat).mp hr, ht⟩)))))⟩))
        · rw [hc] at ht
          exact .inr (.inl ⟨rfl, x, hover hx, ht⟩)
      · exact absurd hf (by simp)
  case sFinal =>
    exact .inr (.inr (.inr ⟨h, n, p, hh, hn, hp, .inr (.inr (.inr (.inr (.inr (.inr
      ⟨rfl, (Host.Outcome.next.inj hf).symm⟩)))))⟩))

end Sys2Proof.Machine
end

