-- ==== Sys2Proof/Laws/Run.lean ====
section
/-! SUPPORT. Runs of several steps: against the host's own, one step at a time, and put end to end. -/

namespace Sys2Proof.Machine

/-- `run` is the host interface's run of this machine. -/
theorem core_run_eq (k : Nat) (s : State) : Host.Core.run Sys2Proof.core k s = run k s := by
  induction k generalizing s with
  | zero => rfl
  | succ k ih =>
    unfold Sys2Proof.core at ih ⊢
    simp only [Host.Core.run, run]
    cases step s with
    | next t => exact ih t
    | fault f => rfl
    | refused r => rfl

@[simp] theorem run_zero (s : State) : run 0 s = .next s := rfl

/-- A run whose first step answers a next state goes on from it. -/
theorem run_step {k : Nat} {s t : State} (h : step s = .next t) : run (k + 1) s = run k t := by
  rw [run, h]

/-- The first step of a run that answers a next state. -/
theorem run_succ_inv {k : Nat} {s u : State} (h : run (k + 1) s = .next u) :
    ∃ t, step s = .next t ∧ run k t = .next u := by
  unfold run at h
  cases hs : step s with
  | next t => exact ⟨t, rfl, by rw [hs] at h; exact h⟩
  | fault f => rw [hs] at h; exact absurd h (by simp)
  | refused r => rw [hs] at h; exact absurd h (by simp)

/-- A stuck instance stays as it is for ever (R173). -/
theorem run_stuck {s : State} (h : stuck s = true) (k : Nat) : run k s = .next s := by
  induction k with
  | zero => rfl
  | succ k ih => rw [run_step (step_stuck h), ih]

/-- Two runs end to end. -/
theorem run_add {a : Nat} (b : Nat) {s t : State} (h : run a s = .next t) : run (a + b) s = run b t := by
  induction a generalizing s with
  | zero =>
    cases h
    rw [Nat.zero_add]
  | succ a ih =>
    obtain ⟨v, hv, h⟩ := run_succ_inv h
    rw [Nat.add_right_comm, run_step hv]
    exact ih h

end Sys2Proof.Machine
end

