-- ==== Sys2Proof/Laws/Host.lean ====
section
/-! SUPPORT. What the host's operations can do, said once: every way an issue ends, every way a host operation ends, and
what an issue and a sequencer step leave alone. -/

namespace Sys2Proof.Machine

/-- A `CMD` write meets the checks of R174 first, whatever its word. -/
theorem issueWord_gate (w : Word) (s : State) : ∃ accept, issueWord w s = issueGate accept s := by
  unfold issueWord
  cases decode w with
  | ok i => exact ⟨_, exec_eq_gate i s⟩
  | error e => exact ⟨_, rfl⟩

/-- Every way a `CMD` write can end (R67, R172, R174). -/
theorem issueWord_cases {w : Word} {s t : State} (h : issueWord w s = .next t) :
    (s.stage.busy = true ∧ t = raiseFault .busyIssue s) ∨ (s.stage = .fault ∧ t = s) ∨
    (s.Issuable ∧ (t = raiseFault .illegalOp s ∨ (∃ r, t = recordFault (.unwrittenOperand r) s) ∨
      (∃ b l d, t = startDriver b l d s) ∨
      ∃ i f, t = startSingle i f s ∧ Instr.isDriver i = false ∧
        ∀ r ∈ operandsRead i, (f.get r).isKnown = true)) := by
  unfold issueWord at h
  cases hd : decode w with
  | ok i =>
    rw [hd] at h
    rcases exec_cases h with h | h | ⟨hi, ⟨r, _, _, h⟩ | ⟨b, l, d, h⟩ | ⟨f, h, h1, h2, h3, hf⟩⟩
    · exact .inl h
    · exact .inr (.inl h)
    · exact .inr (.inr ⟨hi, .inr (.inl ⟨r, h⟩)⟩)
    · exact .inr (.inr ⟨hi, .inr (.inr (.inl ⟨b, l, d, h⟩))⟩)
    · exact .inr (.inr ⟨hi, .inr (.inr (.inr ⟨i, f, h, by cases i <;> simp_all [Instr.isDriver], hf⟩))⟩)
  | error e =>
    rw [hd] at h
    rcases stage_cases s with hs | hs | hs
    · rw [issueIllegal, issueGate_busy hs] at h; cases h; exact .inl ⟨hs, rfl⟩
    · rw [issueIllegal, issueGate_fault hs] at h; cases h; exact .inr (.inl ⟨hs, rfl⟩)
    · rw [issueIllegal, issueGate_issuable hs] at h; cases h; exact .inr (.inr ⟨hs, .inl rfl⟩)

/-- A host operation that only recorded a model fault or noted what a read returned. -/
def Quiet (s t : State) : Prop :=
  ∃ l rd, t = { s with flog := l, reads := rd } ∧ (∀ f ∈ s.flog, f ∈ l) ∧ (s.flog.Nodup → l.Nodup)

theorem Quiet.rfl (s : State) : Quiet s s := ⟨s.flog, s.reads, by trivial, fun _ h => h, id⟩

theorem Quiet.record (f : ModelFault) (s : State) : Quiet s (recordFault f s) :=
  ⟨_, s.reads, by trivial, fun g h => by simp [h], flogAdd_nodup f⟩

theorem Quiet.note (r : Reg) (v : Option Word) (s : State) : Quiet s (noteRead r v s) :=
  ⟨s.flog, _, by trivial, fun _ h => h, id⟩

theorem Quiet.noteRecord (r : Reg) (v : Option Word) (f : ModelFault) (s : State) :
    Quiet s (noteRead r v (recordFault f s)) :=
  ⟨_, _, by trivial, fun g h => by simp [h], flogAdd_nodup f⟩

/-- A host register read changes no register. -/
theorem hostRead_quiet (r : Reg) (s : State) : Quiet s (hostRead r s) := by
  cases r with
  | cmd => exact .noteRecord ..
  | status => exact .note ..
  | reserved k => exact .noteRecord ..
  | operand r =>
    simp only [hostRead, readOperand]
    split
    · exact .note ..
    · exact .noteRecord ..
  | y =>
    simp only [hostRead, readResult]
    split
    · exact .note ..
    · exact .noteRecord ..

/-- A buffer write that answers a next state changed memory only. -/
theorem writeBuffer_next {barred : Bool} {a : Nat} {bs : List Byte} {s t : State}
    (h : writeBuffer barred a bs s = .next t) : t = { s with mem := Memory.writeBytes s.mem a bs } := by
  unfold writeBuffer at h
  split at h
  · cases h
  · split at h
    · cases h
    · exact (Host.Outcome.next.inj h).symm

/-- Every way a host operation can end in a next state. -/
theorem hostStep_cases {op : HostOp} {s t : State} (h : hostStep op s = .next t) :
    (∃ w, op = .wr .cmd w ∧ issueWord w s = .next t) ∨
    (∃ r v, op = .wr (.operand r) v ∧ t = writeOperand r v s) ∨
    Quiet s t ∨
    (op = .wait ∧ s.stage.busy = true ∧ seqStep { s with program := .wait :: s.program } = .next t) ∨
    (∃ a bs, (op = .bytes a bs ∨ ∃ b, op = .byte a b) ∧ t = { s with mem := Memory.writeBytes s.mem a bs }) ∨
    (op = .reset ∧ t = applyReset s) ∨
    (∃ gs, op = .readable gs ∧ t = { s with readable := gs }) ∨
    (op = .seq ∧ seqStep s = .next t) := by
  cases op with
  | wr r v =>
    cases r with
    | cmd => exact .inl ⟨v, rfl, h⟩
    | operand r => cases h; exact .inr (.inl ⟨r, v, rfl, rfl⟩)
    | status | y | reserved k => cases h; exact .inr (.inr (.inl (.record ..)))
  | rd r => cases h; exact .inr (.inr (.inl (hostRead_quiet ..)))
  | wait =>
    simp only [hostStep, hostWait] at h
    split at h
    · exact .inr (.inr (.inr (.inl ⟨rfl, by assumption, h⟩)))
    · cases h; exact .inr (.inr (.inl (hostRead_quiet ..)))
  | bytes a bs => exact .inr (.inr (.inr (.inr (.inl ⟨a, bs, .inl rfl, writeBuffer_next h⟩))))
  | byte a b => exact .inr (.inr (.inr (.inr (.inl ⟨a, [b], .inr ⟨b, rfl⟩, writeBuffer_next h⟩))))
  | reset => cases h; exact .inr (.inr (.inr (.inr (.inr (.inl ⟨rfl, rfl⟩)))))
  | readable gs =>
    simp only [hostStep, hostReadable] at h
    split at h
    · cases h
    · cases h; exact .inr (.inr (.inr (.inr (.inr (.inr (.inl ⟨gs, rfl, rfl⟩))))))
  | seq => exact .inr (.inr (.inr (.inr (.inr (.inr (.inr ⟨rfl, h⟩))))))
  | rdIfDone =>
    simp only [hostStep] at h
    split at h
    · cases h; exact .inr (.inr (.inl (hostRead_quiet .y s)))
    · cases h; exact .inr (.inr (.inl (.rfl _)))

/-- A sequencer step leaves the constants, the buffer, the operands, the program, the fault cause and `R_READABLE`
alone, and removes nothing from `FLOG`. -/
theorem seqStep_keeps {s t : State} (h : seqStep s = .next t) :
    t.cfg = s.cfg ∧ t.mem = s.mem ∧ t.ops = s.ops ∧ (∀ f ∈ s.flog, f ∈ t.flog) ∧ t.program = s.program ∧
      t.fcause = s.fcause ∧ t.readable = s.readable := by
  rcases seqStep_cases h with ⟨_, rfl⟩ | ⟨_, a, _, rfl⟩ | ⟨_, i, v, _, _, rfl⟩ | ⟨x, n, p, _, _, _, h | h | h | h | h | h | h⟩
  · simp
  · simp; tauto
  · simp
  all_goals (rcases h with h; obtain ⟨_, h⟩ := h)
  · obtain ⟨_, _, rfl⟩ := h; simp
  · obtain ⟨_, rfl⟩ := h; simp
  · obtain ⟨_, _, rfl⟩ := h; simp
  · obtain ⟨_, rfl⟩ := h; simp
  · obtain ⟨_, rfl⟩ := h; simp
  · obtain ⟨_, _, _, rfl⟩ := h; simp
  · subst h; simp

/-- An issue leaves the constants, the buffer and the operands alone, and removes nothing from `FLOG`. -/
theorem issueWord_keeps {w : Word} {s t : State} (h : issueWord w s = .next t) :
    t.cfg = s.cfg ∧ t.mem = s.mem ∧ t.ops = s.ops ∧ ∀ f ∈ s.flog, f ∈ t.flog := by
  rcases issueWord_cases h with ⟨_, rfl⟩ | ⟨_, rfl⟩ | ⟨_, rfl | ⟨r, rfl⟩ | ⟨b, l, d, rfl⟩ | ⟨i, f, rfl, _⟩⟩ <;> simp
  intro f hf; exact .inl hf

end Sys2Proof.Machine
end

