-- ==== Sys2Proof/Laws/Memory.lean ====
section
/-! SUPPORT. The laws of the buffer space: every memory operation keeps the canonical form, a read after a write, and
equal contents are equal data. -/

namespace Sys2Proof.Machine

/-- A write adds no address but its own. -/
theorem Memory.write_keys (m : Memory) (x : Nat) (v : Byte) (c : Host.Cell) (h : c ∈ Memory.write m x v) :
    c.1 = x ∨ c ∈ m := by
  induction m with
  | nil => simp_all [Memory.write]
  | cons d m ih =>
    obtain ⟨a, b⟩ := d
    unfold Memory.write at h
    split at h
    · rcases List.mem_cons.mp h with rfl | h
      · exact .inl rfl
      · exact .inr h
    · split at h
      · rcases List.mem_cons.mp h with rfl | h
        · exact .inl rfl
        · exact .inr (List.mem_cons_of_mem _ h)
      · rcases List.mem_cons.mp h with rfl | h
        · exact .inr (List.mem_cons_self ..)
        · exact (ih h).imp_right (List.mem_cons_of_mem _)

/-- A write keeps the canonical form. -/
theorem Memory.write_wf {m : Memory} (x : Nat) (v : Byte) (h : Memory.wf m) : Memory.wf (Memory.write m x v) := by
  induction m with
  | nil => simp [Memory.write, Memory.wf]
  | cons d m ih =>
    obtain ⟨a, b⟩ := d
    obtain ⟨hd, ht⟩ := List.pairwise_cons.mp h
    unfold Memory.write
    split
    · rename_i hx
      refine List.pairwise_cons.mpr ⟨fun c hc => ?_, h⟩
      rcases List.mem_cons.mp hc with rfl | hc
      · exact hx
      · exact Nat.lt_trans hx (hd c hc)
    · split
      · rename_i hx
        subst hx
        exact List.pairwise_cons.mpr ⟨hd, ht⟩
      · rename_i h1 h2
        refine List.pairwise_cons.mpr ⟨fun c hc => ?_, ih ht⟩
        rcases Memory.write_keys m x v c hc with hc | hc
        · show a < c.1
          omega
        · exact hd c hc

/-- Writing consecutive bytes keeps the canonical form. -/
theorem Memory.writeBytes_wf {m : Memory} (addr : Nat) (bs : List Byte) (h : Memory.wf m) :
    Memory.wf (Memory.writeBytes m addr bs) := by
  induction bs generalizing m addr with
  | nil => exact h
  | cons b bs ih => exact ih (addr + 1) (Memory.write_wf addr b h)

/-- The memory of the reset state is in canonical form. -/
theorem Memory.reset_wf : Memory.wf State.reset.mem := List.Pairwise.nil

/-- A read of the written address gives the written byte. -/
theorem Memory.read_write_same (m : Memory) (x : Nat) (v : Byte) :
    Memory.read (Memory.write m x v) x = some v := by
  induction m with
  | nil => simp [Memory.write, Memory.read]
  | cons d m ih =>
    obtain ⟨a, b⟩ := d
    unfold Memory.write
    split
    · simp [Memory.read]
    · split
      · simp [Memory.read]
      · rename_i h1 h2
        simp [Memory.read, ih, Ne.symm h2]

/-- A write leaves every other address alone. -/
theorem Memory.read_write_other (m : Memory) {x z : Nat} (v : Byte) (h : z ≠ x) :
    Memory.read (Memory.write m x v) z = Memory.read m z := by
  induction m with
  | nil => simp [Memory.write, Memory.read, Ne.symm h]
  | cons d m ih =>
    obtain ⟨a, b⟩ := d
    unfold Memory.write
    split
    · simp [Memory.read, Ne.symm h]
    · split
      · rename_i hx
        subst hx
        simp [Memory.read, Ne.symm h]
      · simp [Memory.read, ih]

/-- Writing consecutive bytes: the written addresses read as the bytes, every other address as before. -/
theorem Memory.read_writeBytes (m : Memory) (addr : Nat) (bs : List Byte) (z : Nat) :
    Memory.read (Memory.writeBytes m addr bs) z
      = if addr ≤ z ∧ z < addr + bs.length then bs[z - addr]? else Memory.read m z := by
  induction bs generalizing m addr with
  | nil =>
    rw [if_neg (by simp only [List.length_nil]; omega)]
    rfl
  | cons b bs ih =>
    show Memory.read (Memory.writeBytes (Memory.write m addr b) (addr + 1) bs) z = _
    rw [ih, List.length_cons]
    by_cases hz : z = addr
    · subst hz
      simp [Memory.read_write_same]
    · rw [Memory.read_write_other _ _ hz]
      by_cases h1 : addr + 1 ≤ z ∧ z < addr + 1 + bs.length
      · rw [if_pos h1, if_pos (by omega), show z - addr = (z - (addr + 1)) + 1 by omega]
        rfl
      · rw [if_neg h1, if_neg (by omega)]

/-- An address below every listed one reads as no byte. -/
theorem Memory.read_below {m : Memory} {x : Nat} (h : ∀ c ∈ m, x < c.1) : Memory.read m x = none := by
  induction m with
  | nil => rfl
  | cons d m ih =>
    obtain ⟨a, b⟩ := d
    have ha : x < a := h (a, b) (List.mem_cons_self ..)
    simp only [Memory.read, if_neg (show ¬a = x by omega)]
    exact ih (fun c hc => h c (List.mem_cons_of_mem _ hc))

/-- Two canonical memories with the same contents are the same list. -/
theorem Memory.ext_read {m k : Memory} (hm : Memory.wf m) (hk : Memory.wf k)
    (h : ∀ a, Memory.read m a = Memory.read k a) : m = k := by
  induction m generalizing k with
  | nil =>
    cases k with
    | nil => rfl
    | cons d k => simpa [Memory.read] using h d.1
  | cons d m ih =>
    obtain ⟨a, b⟩ := d
    obtain ⟨hmd, hmt⟩ := List.pairwise_cons.mp hm
    cases k with
    | nil => simpa [Memory.read] using h a
    | cons e k =>
      obtain ⟨a', b'⟩ := e
      obtain ⟨hkd, hkt⟩ := List.pairwise_cons.mp hk
      have haa : a = a' := by
        rcases Nat.lt_trichotomy a a' with hlt | heq | hgt
        · have h1 := h a
          rw [Memory.read_below (m := (a', b') :: k) (by
            intro c hc
            rcases List.mem_cons.mp hc with rfl | hc
            · exact hlt
            · exact Nat.lt_trans hlt (hkd c hc))] at h1
          simp [Memory.read] at h1
        · exact heq
        · have h1 := h a'
          rw [Memory.read_below (m := (a, b) :: m) (by
            intro c hc
            rcases List.mem_cons.mp hc with rfl | hc
            · exact hgt
            · exact Nat.lt_trans hgt (hmd c hc))] at h1
          simp [Memory.read] at h1
      subst haa
      have hb : b = b' := by simpa [Memory.read] using h a
      subst hb
      congr 1
      refine ih hmt hkt (fun x => ?_)
      by_cases hx : a = x
      · subst hx
        rw [Memory.read_below hmd, Memory.read_below hkd]
      · simpa [Memory.read, hx] using h x

end Sys2Proof.Machine
end

