-- ==== Sys2Proof/Laws/PerInstr.lean ====
section
/-! SUPPORT. Statements made command by command: what every command's word and operand list have in common. -/

namespace Sys2Proof.Laws

/-- The command's word has zero reserved bits and an assigned opcode (R65), its opcode's high nibble is that of a
family (R64), and the operand registers it reads are `OPA` and the ones after it, in order, without a gap (R62). -/
def Shape.Statement (i : Instr) : Prop :=
  commandWordWellFormed (encode i) = true ∧ (opcode i).toNat / 16 ≤ 2 ∧
    Machine.operandsRead i
      = [OpReg.opa, .opb, .opc, .opd, .ope].take (Machine.operandsRead i).length ∧
    Machine.operandsRead i ≠ []

theorem Shape.rotl : Shape.Statement .rotl := by unfold Shape.Statement; decide
theorem Shape.rd8 : Shape.Statement .rd8 := by unfold Shape.Statement; decide
theorem Shape.rd16 : Shape.Statement .rd16 := by unfold Shape.Statement; decide
theorem Shape.rd32 : Shape.Statement .rd32 := by unfold Shape.Statement; decide
theorem Shape.rd64 : Shape.Statement .rd64 := by unfold Shape.Statement; decide
theorem Shape.mix : Shape.Statement .mix := by unfold Shape.Statement; decide
theorem Shape.mixs : Shape.Statement .mixs := by unfold Shape.Statement; decide
theorem Shape.mixb : Shape.Statement .mixb := by unfold Shape.Statement; decide
theorem Shape.premix : Shape.Statement .premix := by unfold Shape.Statement; decide
theorem Shape.hashi : Shape.Statement .hashi := by unfold Shape.Statement; decide
theorem Shape.hash : Shape.Statement .hash := by unfold Shape.Statement; decide
theorem Shape.hashs : Shape.Statement .hashs := by unfold Shape.Statement; decide

end Sys2Proof.Laws
end

