-- ==== Sys2Proof/Laws/System.lean ====
section
/-! SUPPORT. What a step of a system of instances can do, said once. -/

namespace Sys2Proof.Machine

/-- A step of instance `k` that answers a next state is that instance's own step over the shared bytes. -/
theorem System.step_inv {k : Nat} {y z : System} (h : System.step k y = .next z) :
    ∃ b t, y.blocks[k]? = some b ∧ Machine.step { b with mem := y.mem } = .next t ∧ z = y.store k t := by
  unfold System.step System.view at h
  cases hb : y.blocks[k]? with
  | none => rw [hb] at h; cases h
  | some b =>
    rw [hb] at h
    simp only [Option.map_some] at h
    split at h
    · cases h
    · cases hs : Machine.step { b with mem := y.mem } with
      | next t => rw [hs] at h; cases h; exact ⟨b, t, rfl, hs, rfl⟩
      | fault f => rw [hs] at h; cases h
      | refused f => rw [hs] at h; cases h

/-- An operation that writes no buffer bytes is never barred. -/
theorem System.writeBarred_of_no_bytes (y : System) {s : State} (h : ∀ addr bs rest, s.program ≠ .bytes addr bs :: rest)
    (h' : ∀ addr b rest, s.program ≠ .byte addr b :: rest) : y.writeBarred s = false := by
  have hp : pendingBytes s = (0, 0) := by
    unfold pendingBytes
    split
    · exact absurd ‹_› (h _ _ _)
    · exact absurd ‹_› (h' _ _ _)
    · rfl
  simp [System.writeBarred, hp, touchesReadable]

/-- The instance's own step, answered for the system unless the operation is barred. -/
theorem System.step_of_step {k : Nat} {y : System} {b t : State} (hb : y.blocks[k]? = some b)
    (ht : Machine.step { b with mem := y.mem } = .next t) :
    System.step k y = (if !stuck b && y.writeBarred { b with mem := y.mem } then .refused .bufferWriteWhileBusy
      else .next (y.store k t)) := by
  simp only [System.step, System.view, hb, Option.map_some, ht]
  rfl

end Sys2Proof.Machine
end

