-- ==== Sys2Proof/Tests/Slice0.lean ====
section
/-! SUPPORT. Small tests against the spec's own tables (spec/95_test_vectors.md) and encodings (R64, R65), the smoke test
of the well-formedness checks, and for every statement with hypotheses a state that meets them all. -/

namespace Sys2Proof.Tests

open Sys2Proof Sys2Proof.Machine

/-! ### The well-formedness checks refuse ill-formed terms -/

theorem test_wf_word_reserved_bits : commandWordWellFormed 0x0000000000000110 = false := by decide
theorem test_wf_word_top_bit : commandWordWellFormed 0x8000000000000010 = false := by decide
theorem test_wf_word_reserved_opcodes :
    [0x00, 0x06, 0x0F, 0x14, 0x1F, 0x23, 0xFF].map commandWordWellFormed = List.replicate 7 false := by decide
theorem test_wf_word_assigned_opcodes :
    [0x01, 0x02, 0x03, 0x04, 0x05, 0x10, 0x11, 0x12, 0x13, 0x20, 0x21, 0x22].map commandWordWellFormed
      = List.replicate 12 true := by decide

/-- The artificial parameter set TP1 of spec/95_test_vectors.md. -/
def tp1 : Config where
  kC := 0x0123456789ABCDEF
  kQ := 0x1111111111111111
  kR := 0x3333333333333333
  kS := 0x5555555555555555
  kT := 0x7777777777777777
  addrW := 64

theorem test_tp1_lawful : tp1.Lawful := by decide
theorem test_wf_write_status : HostOp.wellFormed tp1 (.wr .status 0) = false := by decide
theorem test_wf_write_y : HostOp.wellFormed tp1 (.wr .y 0) = false := by decide
theorem test_wf_write_reserved : HostOp.wellFormed tp1 (.wr (.reserved 0) 0) = false := by decide
theorem test_wf_write_illegal_command : HostOp.wellFormed tp1 (.wr .cmd 0x06) = false := by decide
theorem test_wf_read_cmd : HostOp.wellFormed tp1 (.rd .cmd) = false := by decide
theorem test_wf_read_reserved : HostOp.wellFormed tp1 (.rd (.reserved 7)) = false := by decide
theorem test_wf_bytes_past_the_space :
    HostOp.wellFormed tp1 (.bytes 0xFFFFFFFFFFFFFFFF [1, 2]) = false ∧
      HostOp.wellFormed tp1 (.bytes 0xFFFFFFFFFFFFFFFF [1]) = true := by decide
theorem test_wf_readable_past_the_space :
    HostOp.wellFormed tp1 (.readable [⟨0, 16⟩, ⟨0xFFFFFFFFFFFFFFFF, 2⟩]) = false := by decide

/-! ### Decoding: every constructor from the word its own rule writes out -/

theorem test_decode_rotl : decode 0x0000000000000001 = .ok .rotl := by rfl
theorem test_decode_rd8 : decode 0x0000000000000002 = .ok .rd8 := by rfl
theorem test_decode_rd16 : decode 0x0000000000000003 = .ok .rd16 := by rfl
theorem test_decode_rd32 : decode 0x0000000000000004 = .ok .rd32 := by rfl
theorem test_decode_rd64 : decode 0x0000000000000005 = .ok .rd64 := by rfl
theorem test_decode_mix : decode 0x0000000000000010 = .ok .mix := by rfl
theorem test_decode_mixs : decode 0x0000000000000011 = .ok .mixs := by rfl
theorem test_decode_mixb : decode 0x0000000000000012 = .ok .mixb := by rfl
theorem test_decode_premix : decode 0x0000000000000013 = .ok .premix := by rfl
theorem test_decode_hashi : decode 0x0000000000000020 = .ok .hashi := by rfl
theorem test_decode_hash : decode 0x0000000000000021 = .ok .hash := by rfl
theorem test_decode_hashs : decode 0x0000000000000022 = .ok .hashs := by rfl
theorem test_decode_reserved_bits : decode 0x0000000000000110 = .error .reservedBits := by rfl
theorem test_decode_reserved_opcode : decode 0x0000000000000006 = .error .reservedOpcode := by rfl
theorem test_decode_table_word : decodeTableWord 64 0x12 = some .mixb ∧ decodeTableWord 64 0x23 = none := by decide

/-- The word of `MIXB` bit by bit: bits 4 and 1 set (R64, `0x12`). -/
theorem test_decode_mixb_bits : decode (1 <<< 4 ||| 1 <<< 1) = .ok .mixb := by rfl

/-! ### Small states -/

/-- A block under TP1 right after reset. -/
def block : State := { State.reset with cfg := tp1 }

/-- `B_72` at `0x1000`: byte `i` equal to `i`. -/
def bytes72 : Memory := (List.range 72).map (fun k => (0x1000 + k, BitVec.ofNat 8 k))

/-- The block over `B_72`, exactly its bytes readable. -/
def buffered : State := { block with mem := bytes72, readable := [⟨0x1000, 72⟩] }

/-- The block with its operand registers written. -/
def loaded (a b c d e : Word) : State := { buffered with ops := ⟨.known a, .known b, .known c, .known d, .known e⟩ }

/-- A single-step command running on latched operands. -/
def running (i : Instr) (a b c d e : Word) : State :=
  { buffered with
    stage := .sExec, running := some i, latches := ⟨.known a, .known b, .known c, .known d, .known e⟩ }

/-- A driver command in one of its stages. -/
def inStage (g : Stage) (h n : Word) (p : Nat) : State :=
  { buffered with stage := g, h := .known h, n := .known n, p := .known p }

/-- The block with one host operation to come. -/
def hosting (s : State) (op : HostOp) : State := { s with program := [op] }

/-- A field of the state a step answers. -/
def field {α : Type} (f : State → α) : Out → Option α
  | .next t => some (f t)
  | .fault _ => none
  | .refused _ => none

theorem test_bytes72_wf : Memory.wf bytes72 := by decide
theorem test_reset_memory_wf : Memory.wf State.reset.mem := by decide

/-! ### Vectors of spec/95_test_vectors.md, section 2 -/

theorem test_rotl_wraps : field (fun t => t.y.toOption) (seqStep (running .rotl 0x8000000000000001 1 0 0 0))
    = some (some 0x0000000000000003) := by decide
theorem test_rotl_ignores_high_count : field (fun t => t.y.toOption) (seqStep (running .rotl 0x0123456789ABCDEF 0xFFFFFFFFFFFFFFC4 0 0 0))
    = some (some 0x123456789ABCDEF0) := by decide
theorem test_rd8 : field (fun t => t.y.toOption) (seqStep (running .rd8 0x1000 5 0 0 0)) = some (some 0x05) := by decide
theorem test_rd16_odd : field (fun t => t.y.toOption) (seqStep (running .rd16 0x1000 1 0 0 0)) = some (some 0x0201) := by decide
theorem test_rd16_before_the_region : field State.flog (seqStep (running .rd16 0x0FFF 0 0 0 0))
    = some [.bufferOverread 0x0FFF] := by decide
theorem test_rd8_does_not_wrap : field State.flog (seqStep (running .rd8 0xFFFFFFFFFFFFFFFF 1 0 0 0))
    = some [.bufferOverread 0x10000000000000000] := by decide
theorem test_rd32_unaligned : field (fun t => t.y.toOption) (seqStep (running .rd32 0x1000 3 0 0 0)) = some (some 0x06050403) := by decide
theorem test_rd64_unaligned : field (fun t => t.y.toOption) (seqStep (running .rd64 0x1000 7 0 0 0))
    = some (some 0x0E0D0C0B0A090807) := by decide
theorem test_rd64_past_the_region : field (fun t => (t.flog, t.y.toOption, t.stage)) (seqStep (running .rd64 0x1000 65 0 0 0))
    = some ([.bufferOverread 0x1048], none, .sExec) := by decide
theorem test_mix_one : field (fun t => t.y.toOption) (seqStep (running .mix 1 0 0 0 0)) = some (some 0x9871AA19927EB1DA) := by decide
theorem test_mix_seed : field (fun t => t.y.toOption) (seqStep (running .mix 0x3C79AC492BA7B653 0 0 0 0))
    = some (some 0x5DB493E2E08F65B5) := by decide
theorem test_mixs_one : field (fun t => t.y.toOption) (seqStep (running .mixs 1 1 0 0 0)) = some (some 0x5A2EF95124D8DEF4) := by decide
theorem test_mixs_words : field (fun t => t.y.toOption) (seqStep (running .mixs 0x3C79AC492BA7B653 0x0706050403020100 0 0 0))
    = some (some 0xB417C52D5EDCA07F) := by decide
theorem test_mixb_powers : field (fun t => t.y.toOption) (seqStep (running .mixb 5 8 0x10 0x20 0x40))
    = some (some 0x888888830000001D) := by decide
theorem test_mixb_second_word : field (fun t => t.y.toOption) (seqStep (running .mixb 0 0 1 0 0))
    = some (some 0x111111110AAAAAAB) := by decide
theorem test_premix_one : field (fun t => t.y.toOption) (seqStep (running .premix 1 0 0 0 0)) = some (some 0x0000800020000001) := by decide
theorem test_hash_issue : field (fun t => (t.h.toOption, t.n.toOption, t.p.toOption, t.stage)) (exec .hash (loaded 0x1000 9 0 0 0))
    = some (some 0x3C79AC492BA7B65A, some 9, some 0x1000, .sBlock) := by decide
theorem test_hashs_issue : field (fun t => t.h.toOption) (exec .hashs (loaded 0x1000 0 1 0 0)) = some (some 0x0000800020000001) := by decide
theorem test_hashi_issue : field (fun t => t.h.toOption) (exec .hashi (loaded 0x1000 9 8 0 0)) = some (some 1) := by decide
theorem test_tail_seven : tailValue (fun k => BitVec.ofNat 8 (0xF1 + k)) 0 7 = 0x00F7F6F5F4F3F2F1 := by decide
theorem test_tail_three : tailValue (fun k => BitVec.ofNat 8 (0xF1 + k)) 0 3 = 0x0000000000F3F2F1 := by decide
theorem test_hash_of_nine : axhashInternal tp1 (byteAt buffered) 0x1000 9 0x3C79AC492BA7B653 = 0x2339F00A337618A4 := by
  decide
theorem test_hash_of_sixty_five :
    axhashInternal tp1 (byteAt buffered) 0x1000 65 0x3C79AC492BA7B653 = 0x37992B103F9EF732 := by
  decide +kernel

/-! ### Faults (section 2.9) -/

theorem test_illegal_op : field statusWord (step (hosting block (.wr .cmd 0x06))) = some 0x104 := by decide
theorem test_busy_before_illegal :
    field statusWord (step (hosting (running .mix 1 0 0 0 0) (.wr .cmd 0x06))) = some 0x204 := by decide
theorem test_unwritten_operand : field (fun t => (t.flog, t.stage)) (step (hosting block (.wr .cmd 0x10)))
    = some ([.unwrittenOperand .opa], .idle) := by decide
theorem test_result_not_valid : field (fun t => (t.flog, t.reads)) (step (hosting block (.rd .y)))
    = some ([.resultNotValid], [⟨.y, none⟩]) := by decide
theorem test_bad_access : field State.flog (step (hosting block (.rd (Reg.ofIndex 9)))) = some [.badRegAccess (.reserved 1)] := by
  decide

/-- R69: the expansion of `ROTL 0x0123456789ABCDEF, 4`. -/
theorem test_expand_rotl : expand .rotl [0x0123456789ABCDEF, 4]
    = [.wr (.operand .opa) 0x0123456789ABCDEF, .wr (.operand .opb) 4, .wr .cmd 0x0000000000000001, .wait, .rdIfDone] := by
  decide

/-- The whole pseudo-instruction runs from reset (95_test_vectors.md, table 2.1). -/
theorem test_run_rotl : field (fun t => (t.y.toOption, t.stage, t.reads.map HostRead.value))
      (run 7 { block with program := expand .rotl [0x0123456789ABCDEF, 4] })
    = some (some 0x123456789ABCDEF0, .done, [some 0x123456789ABCDEF0, some 2]) := by decide

/-- Each table word, placed after reset, issues its command in the very next step (R67). -/
theorem test_fetch_word_after_reset :
    [0x01, 0x02, 0x03, 0x04, 0x05, 0x10, 0x11, 0x12, 0x13, 0x20, 0x21, 0x22].map
        (fun w => field State.stage (step (State.reset.withFetchWord 64 w)))
      = List.replicate 9 (some .sExec) ++ List.replicate 3 (some .sBlock) := by decide

/-- P5 of spec/95_test_vectors.md: `MIXS` with `OPB` unwritten records it, and the instance stays in `IDLE`, whatever is
still to come. -/
theorem test_p5_stuck :
    field (fun t => (t.flog, t.stage, t.program))
        (run 5 { block with program := [.reset, .wr (.operand .opa) 0x1234, .wr .cmd 0x11, .reset] })
      = some ([.unwrittenOperand .opb], .idle, [.reset]) := by decide

/-! ### Witnesses: for every statement with hypotheses, states and operands that meet them all -/

theorem witness_StepIssuesTheDecodedCommand :
    stuck (hosting block (.wr .cmd 0x10)) = false ∧ (hosting block (.wr .cmd 0x10)).program = .wr .cmd 0x10 :: [] ∧
      decode 0x10 = .ok .mix := ⟨rfl, rfl, rfl⟩

theorem witness_FetchWordIsIssuedNext : stuck State.reset = false ∧ operandsRead .mixb ≠ [] := ⟨rfl, by decide⟩

/-- The words are those of `test_wf_word_reserved_bits`, `test_wf_word_top_bit` and `test_wf_word_reserved_opcodes`. -/
theorem witness_IllegalWordRaisesIllegalOp :
    commandWordWellFormed 0 = false ∧ ∀ g ∈ [Stage.idle, .done],
      stuck (hosting { block with stage := g } (.wr .cmd 0)) = false ∧
        State.Issuable (hosting { block with stage := g } (.wr .cmd 0)) := by decide

theorem witness_AnyCommandWriteWhileBusyRaisesBusyIssue :
    ∀ s ∈ [running .mix 1 0 0 0 0, inStage .sBlock 1 64 0x1000, inStage .sWord 1 8 0x1000, inStage .sTail 1 7 0x1000,
      inStage .sFinal 1 0 0x1000], stuck (hosting s (.wr .cmd 0x21)) = false ∧ busy (hosting s (.wr .cmd 0x21)) = true := by
  decide

theorem witness_CommandWriteInFaultHasNoEffect :
    let s : State := hosting { block with stage := .fault, fcause := .illegalOp } (.wr .cmd 0x10)
    stuck s = false ∧ s.stage = .fault ∧ s.program = .wr .cmd 0x10 :: [] := by decide

theorem witness_UnwrittenOperandIsRecordedAndSticks :
    let s : State := { block with ops := ⟨.known 1, .known 2, .known 3, .known 4, .noValue 0⟩ }
    (s.Issuable ∧ operandsRead .mixb = [.opa, .opb, .opc, .opd] ++ .ope :: [] ∧
      (∀ q ∈ [OpReg.opa, .opb, .opc, .opd], (s.ops.get q).isKnown = true) ∧ (s.ops.get .ope).isKnown = false) ∧
    (block.Issuable ∧ operandsRead .hash = [] ++ .opa :: [.opb] ∧ (block.ops.get .opa).isKnown = false) := by decide

theorem witness_RotlRotatesOpaByOpb :
    let s := loaded 1 64 0 0 0
    s.Issuable ∧ s.ops.a = .known 1 ∧ s.ops.b = .known 64 := by decide

/-- Each width ends exactly at the last readable byte. -/
theorem witness_ReadersReadLittleEndianBytes :
    ∀ width ∈ [1, 2, 4, 8],
      let s := loaded 0x1000 (BitVec.ofNat 64 (72 - width)) 0 0 0
      s.Issuable ∧ s.ops.a = .known 0x1000 ∧ s.ops.b = .known (BitVec.ofNat 64 (72 - width)) ∧
        s.Readable ((0x1000 : Word).toNat + (BitVec.ofNat 64 (72 - width)).toNat) width := by decide

/-- The last byte of the widest read, and the first byte of the narrowest. -/
theorem witness_ReaderOverreadIsRecordedAndSticks :
    (let s := running .rd64 0x1000 65 0 0 0
     s.stage = .sExec ∧ s.running = some .rd64 ∧ s.latches.a = .known 0x1000 ∧ s.latches.b = .known 65 ∧
      s.Readable ((0x1000 : Word).toNat + (65 : Word).toNat) 7 ∧
      readableByte s ((0x1000 : Word).toNat + (65 : Word).toNat + 7) = false) ∧
    (let s := running .rd8 0xFFFFFFFFFFFFFFFF 1 0 0 0
     s.Readable ((0xFFFFFFFFFFFFFFFF : Word).toNat + (1 : Word).toNat) 0 ∧
      readableByte s ((0xFFFFFFFFFFFFFFFF : Word).toNat + (1 : Word).toNat + 0) = false) := by decide

theorem witness_MixFinalizesOpa :
    let s := loaded 1 0 0 0 0
    s.Issuable ∧ s.ops.a = .known 1 := by decide

theorem witness_MixsFoldsOneWord :
    let s := loaded 1 2 0 0 0
    s.Issuable ∧ s.ops.a = .known 1 ∧ s.ops.b = .known 2 := by decide

theorem witness_MixbFoldsFourWords :
    let s := loaded 1 2 3 4 5
    s.Issuable ∧ s.ops = ⟨.known 1, .known 2, .known 3, .known 4, .known 5⟩ := by decide

theorem witness_PremixMixesTheSeed :
    let s := { loaded 7 0 0 0 0 with stage := .done, y := .known 1 }
    State.Issuable s ∧ s.ops.a = .known 7 := by decide

theorem witness_OperandWritesDoNotReachARunningCommand :
    busy (running .mixs 1 2 0 0 0) = true ∧ ∃ t, seqStep (running .mixs 1 2 0 0 0) = .next t := ⟨rfl, _, rfl⟩

theorem witness_HashiInitialisesWithTheRawSeed :
    let s := loaded 0x1000 65 3 0 0
    s.Issuable ∧ s.ops.a = .known 0x1000 ∧ s.ops.b = .known 65 ∧ s.ops.c = .known 3 := by decide

/-- `HASH` issues with no value in `OPC`. -/
theorem witness_HashAndHashsInitialiseWithTheirSeeds :
    let s : State := { block with ops := ⟨.known 0x1000, .known 0, .noValue 0, .noValue 0, .noValue 0⟩ }
    (s.Issuable ∧ s.ops.a = .known 0x1000 ∧ s.ops.b = .known 0) ∧
      (loaded 0x1000 0 1 0 0).Issuable ∧ (loaded 0x1000 0 1 0 0).ops.c = .known 1 := by decide

/-- The clauses at 63 and 64 bytes left, the whole block readable. -/
theorem witness_BlockStepConsumesTwoHalves :
    ((63 : Word).toNat < 64 ∧ (inStage .sBlock 1 63 0x1000).n = .known 63) ∧
    64 ≤ (64 : Word).toNat ∧
      (let s := inStage .sBlock 1 64 0x1000
       s.stage = .sBlock ∧ s.h = .known 1 ∧ s.n = .known 64 ∧ s.p = .known 0x1000 ∧
        ∀ p ∈ [0x1000, 0x1000 + 8, 0x1000 + 16, 0x1000 + 24, 0x1000 + 32, 0x1000 + 40, 0x1000 + 48, 0x1000 + 56],
          ∃ w, memRead s p 8 = .ok w) := by
  have hr : ∀ p ∈ [0x1000, 0x1000 + 8, 0x1000 + 16, 0x1000 + 24, 0x1000 + 32, 0x1000 + 40, 0x1000 + 48, 0x1000 + 56],
      State.Readable (inStage .sBlock 1 64 0x1000) p 8 := by decide
  exact ⟨⟨by decide, rfl⟩, by decide, rfl, rfl, rfl, rfl, fun p hp => ⟨_, memRead_ok (hr p hp)⟩⟩

/-- The overread clause of the driver's stages at its ends: the last byte of a block, of a word and of a tail is the lowest
one that may not be read, and the first is. -/
theorem witness_StageOverreadClauses :
    (let s := inStage .sBlock 1 64 0x1009
     s.stage = .sBlock ∧ s.h = .known 1 ∧ s.n = .known 64 ∧ s.p = .known 0x1009 ∧ s.Readable 0x1009 63 ∧
      readableByte s (0x1009 + 63) = false) ∧
    (let s := inStage .sWord 1 8 0x1041
     s.stage = .sWord ∧ s.n = .known 8 ∧ s.p = .known 0x1041 ∧ s.Readable 0x1041 7 ∧ readableByte s (0x1041 + 7) = false) ∧
    (let s := inStage .sTail 1 7 0x1042
     s.stage = .sTail ∧ s.n = .known 7 ∧ s.p = .known 0x1042 ∧ s.Readable 0x1042 6 ∧ readableByte s (0x1042 + 6) = false) ∧
    ∀ g ∈ [Stage.sBlock, .sWord, .sTail],
      State.Readable (inStage g 1 1 0x0FFF) 0x0FFF 0 ∧ readableByte (inStage g 1 1 0x0FFF) (0x0FFF + 0) = false := by
  decide

/-- R174: an overread leaves `H`, `N`, `P`, `Y` and `STAGE`, and records the lowest address only. -/
theorem test_block_overread :
    field (fun t => ([t.h.toOption, t.n.toOption, t.y.toOption], t.p.toOption, t.stage, t.flog)) (seqStep (inStage .sBlock 1 64 0x1009))
      = some ([some 1, some 64, none], some 0x1009, .sBlock, [.bufferOverread 0x1048]) := by decide

/-- The clauses at 7 and 8 bytes left. -/
theorem witness_WordStepFoldsOneChunk :
    ((7 : Word).toNat < 8 ∧ (inStage .sWord 1 7 0x1000).n = .known 7) ∧
    8 ≤ (8 : Word).toNat ∧ ∃ w, memRead (inStage .sWord 1 8 0x1000) 0x1000 8 = .ok w :=
  ⟨⟨by decide, rfl⟩, by decide, _, memRead_ok (by decide)⟩

/-- Every row of the tail, and a read of each width at each offset that the rows make. -/
theorem witness_TailStepTakesExactlyOneRow :
    (∀ n ∈ [0, 1, 2, 3, 4, 5, 6, 7],
      (inStage .sTail 1 n 0x1000).stage = .sTail ∧ (inStage .sTail 1 n 0x1000).n = .known n) ∧
    (∀ k ≤ 6, ∃ w, memRead (inStage .sTail 1 7 0x1000) (0x1000 + k) 1 = .ok w) ∧
    (∀ k ≤ 4, ∃ w, memRead (inStage .sTail 1 7 0x1000) (0x1000 + k) 2 = .ok w) ∧
    ∃ w, memRead (inStage .sTail 1 7 0x1000) 0x1000 4 = .ok w := by
  have hr : State.Readable (inStage .sTail 1 7 0x1000) 0x1000 7 := by decide
  have sub : ∀ k n, k + n ≤ 7 → State.Readable (inStage .sTail 1 7 0x1000) (0x1000 + k) n := by
    intro k n h j hj
    rw [Nat.add_assoc]
    exact hr (k + j) (by omega)
  exact ⟨fun n _ => ⟨rfl, rfl⟩, fun k hk => ⟨_, memRead_ok (sub k 1 (by omega))⟩, fun k hk => ⟨_, memRead_ok (sub k 2 (by omega))⟩,
    _, memRead_ok (sub 0 4 (by omega))⟩

theorem witness_FinalStepWritesTheDigest :
    let s := inStage .sFinal 1 0 0x1000
    s.stage = .sFinal ∧ s.h = .known 1 ∧ s.n = .known 0 ∧ s.p = .known 0x1000 := by decide

/-- The premises of `HashiReachesTheReferenceDigest` at a length. -/
abbrev HashiPremises (len : Word) : Prop :=
  let s := loaded 0x1000 len 1 0 0
  s.Issuable ∧ stuck s = false ∧ s.program = [] ∧ s.ops.a = .known 0x1000 ∧ s.ops.b = .known len ∧ s.ops.c = .known 1 ∧
    s.Readable (0x1000 : Word).toNat len.toNat

/-- No byte, a tail alone, a block alone, and a block with a chunk. -/
theorem witness_HashiReachesTheReferenceDigest :
    HashiPremises 0 ∧ HashiPremises 7 ∧ HashiPremises 64 ∧ HashiPremises 72 :=
  ⟨by decide, by decide, by decide, by decide⟩

theorem witness_HashAndHashsReachTheReferenceDigest :
    let s := { loaded 0x1000 65 1 0 0 with stage := .done, y := .known 0 }
    State.Issuable s ∧ stuck s = false ∧ s.program = [] ∧ s.ops.a = .known 0x1000 ∧ s.ops.b = .known 65 ∧
      s.ops.c = .known 1 ∧ State.Readable s (0x1000 : Word).toNat (65 : Word).toNat := by decide

/-- The lowest unreadable byte is the last, and, for `HASH` with no value in `OPC`, the first, of the buffer. -/
theorem witness_DriverOverreadStopsAtTheLowestByte :
    (let s := loaded 0x1000 73 1 0 0
     s.Issuable ∧ stuck s = false ∧ s.program = [] ∧ s.ops.a = .known 0x1000 ∧ s.ops.b = .known 73 ∧
      (∀ i ∈ [Instr.hashi, .hash, .hashs], ∀ r ∈ operandsRead i, (s.ops.get r).isKnown = true) ∧ 72 < (73 : Word).toNat ∧ s.Readable (0x1000 : Word).toNat 72 ∧
      readableByte s ((0x1000 : Word).toNat + 72) = false) ∧
    (let s : State := { buffered with ops := ⟨.known 0x0FFF, .known 1, .noValue 0, .noValue 0, .noValue 0⟩ }
     s.Issuable ∧ s.program = [] ∧ (∀ r ∈ operandsRead .hash, (s.ops.get r).isKnown = true) ∧ s.ops.c.isKnown = false ∧
      0 < (1 : Word).toNat ∧ s.Readable (0x0FFF : Word).toNat 0 ∧ readableByte s ((0x0FFF : Word).toNat + 0) = false) := by
  decide

theorem witness_DigestDependsOnlyOnItsBytes :
    let f : Nat → Byte := fun _ => 0
    let g : Nat → Byte := fun a => if a = 0x1001 then 1 else 0
    (∀ k, k < (1 : Word).toNat → f ((0x1000 : Word).toNat + k) = g ((0x1000 : Word).toNat + k)) ∧ f 0x1001 ≠ g 0x1001 := by
  decide

/-- Two states that differ in `Y`, the latches, the stage and an operand the command does not read. -/
theorem witness_SameInputsGiveTheSameResult :
    let s := loaded 0x1000 9 1 0 0
    let s' : State := { loaded 0x1000 9 5 6 7 with stage := .done, y := .known 9, latches := ⟨.known 1, .noValue 0, .noValue 0, .noValue 0, .noValue 0⟩ }
    s.Issuable ∧ s'.Issuable ∧ s.program = [] ∧ s'.program = [] ∧ s.flog = s'.flog ∧ s.cfg = s'.cfg ∧ s.mem = s'.mem ∧
      s.readable = s'.readable ∧
      (∀ r ∈ operandsRead .hash, (s.ops.get r).isKnown = true ∧ s.ops.get r = s'.ops.get r) ∧
      (∃ t t' u, exec .hash s = .next t ∧ exec .hash s' = .next t' ∧ run 5 t = .next u) :=
  ⟨by decide, by decide, rfl, rfl, rfl, rfl, rfl, rfl, by decide, _, _, _, rfl, rfl, rfl⟩

theorem witness_RotlMovesEveryBit : (0 : Nat) < 64 ∧ (63 : Nat) < 64 := by decide

/-- A read, and a read whose last byte, or only its first byte, may not be read. -/
theorem witness_MemReadIsLittleEndianOrTheLowestOverread :
    buffered.Readable 0x1040 8 ∧ (buffered.Readable 0x1041 7 ∧ readableByte buffered (0x1041 + 7) = false) ∧
      readableByte buffered (0x0FFF + 0) = false := by decide

theorem witness_MixedWidthReadsAgree : ∀ m ∈ [1, 2, 4], buffered.Readable (0x1000 + 72 - 2 * m) (2 * m) := by decide

theorem witness_TailValueIsTheLittleEndianTail : (1 ≤ 1 ∧ 1 ≤ 7) ∧ (1 ≤ 7 ∧ 7 ≤ 7) := by decide

theorem witness_MixIsABijection : tp1.Lawful := by decide

theorem witness_MixStreamLawsHold : tp1.Lawful := by decide

theorem witness_MixStreamBulkLawsHold : tp1.Lawful := by decide

theorem witness_StatusReadHasNoSideEffect :
    stuck (hosting block (.rd .status)) = false ∧ (hosting block (.rd .status)).program = .rd .status :: [] := by decide

theorem witness_OperandRegistersHoldTheLastWrite :
    let s : State := { running .mix 1 0 0 0 0 with program := [.wr (.operand .ope) 5, .rd (.operand .ope)] }
    stuck s = false ∧ s.program = .wr (.operand .ope) 5 :: .rd (.operand .ope) :: [] := by decide

theorem witness_UnwrittenOperandReadIsRecorded :
    let s := hosting block (.rd (.operand .opc))
    stuck s = false ∧ (s.ops.get .opc).isKnown = false ∧ s.program = .rd (.operand .opc) :: [] := by decide

theorem witness_BadRegisterAccessIsRecordedOnly :
    ∀ op ∈ [HostOp.rd .cmd, .rd (.reserved 0), .rd (.reserved 7), .wr .status 1, .wr .y 1, .wr (.reserved 0) 1,
      .wr (.reserved 7) 1], stuck (hosting block op) = false ∧ (hosting block op).program = op :: [] := by decide

/-- Both clauses. -/
theorem witness_ResultIsReadOnlyWhileDone :
    let s : State := hosting { block with stage := .done, y := .known 1 } (.rd .y)
    (stuck s = false ∧ s.program = .rd .y :: [] ∧ s.stage = .done) ∧
    (stuck (hosting block (.rd .y)) = false ∧ (hosting block (.rd .y)).program = .rd .y :: [] ∧ block.stage ≠ .done) := by
  decide

/-- `BYTES` while busy and while idle, a single write of the region's last byte and of the one past it while busy, and
the space's end. -/
theorem witness_HostBytesChangeExactlyTheWrittenBytes :
    (let s := hosting (running .mix 1 0 0 0 0) (.bytes 0x1048 [1])
     stuck s = false ∧ busy s = true ∧ s.program = .bytes 0x1048 [1] :: [] ∧ 0x1048 < 2 ^ s.cfg.addrW) ∧
    (let s := hosting (running .mix 1 0 0 0 0) (.byte 0x1047 1)
     stuck s = false ∧ busy s = true ∧ s.program = .byte 0x1047 1 :: [] ∧ inReadable s 0x1047 = true ∧
      inReadable s 0x1048 = false) ∧
    (busy (hosting buffered (.bytes 0x1000 [1, 2])) = false ∧ inReadable buffered 0x1000 = true) ∧
    2 ^ buffered.cfg.addrW ≤ 0xFFFFFFFFFFFFFFFF + 1 := by decide

/-- R69, R49: while busy `BYTES` is refused even past `R_READABLE`, and the single write is refused inside it only. -/
theorem test_buffer_writes_while_busy :
    step (hosting (running .mix 1 0 0 0 0) (.bytes 0x1048 [1])) = .refused .bufferWriteWhileBusy ∧
      step (hosting (running .mix 1 0 0 0 0) (.byte 0x1047 1)) = .refused .bufferWriteWhileBusy ∧
      field (fun t => byteAt t 0x1048) (step (hosting (running .mix 1 0 0 0 0) (.byte 0x1048 1))) = some 1 :=
  ⟨rfl, rfl, rfl⟩

/-- Both clauses. -/
theorem witness_WaitPollsUntilNotBusy :
    (stuck (hosting (running .mix 1 0 0 0 0) .wait) = false ∧ busy (hosting (running .mix 1 0 0 0 0) .wait) = true) ∧
      stuck (hosting block .wait) = false ∧ busy (hosting block .wait) = false := by decide

theorem witness_ResetEventClearsEveryRegister :
    ∀ g ∈ [Stage.idle, .sExec, .sBlock, .sWord, .sTail, .sFinal, .done, .fault],
      stuck (hosting { block with stage := g } .reset) = false ∧
        (hosting { block with stage := g } .reset).program = .reset :: [] := by decide

theorem witness_StuckInstanceTakesNoStep :
    let s : State := { block with flog := [.unwrittenOperand .opb, .bufferOverread 0x1100], program := [.reset] }
    ModelFault.unwrittenOperand .opb ∈ s.flog ∧ ModelFault.bufferOverread 0x1100 ∈ s.flog := by decide

theorem witness_StageMovesOnlyAlongItsRules :
    (∃ t, step (running .mix 1 0 0 0 0) = .next t) ∧ (∃ t, step (inStage .sBlock 1 63 0x1000) = .next t) ∧
      (∃ t, step (hosting block (.wr .cmd 0)) = .next t) ∧
      ∃ t, step (hosting (inStage .sTail 1 0 0x1000) .reset) = .next t := ⟨⟨_, rfl⟩, ⟨_, rfl⟩, ⟨_, rfl⟩, _, rfl⟩

theorem witness_OnlyResetLeavesFault :
    let s : State := hosting { block with stage := .fault, fcause := .busyIssue } (.wr .cmd 0x10)
    s.stage = .fault ∧ (∃ t, step s = .next t) ∧ ∀ rest, s.program ≠ .reset :: rest :=
  ⟨rfl, ⟨_, rfl⟩, fun _ h => by cases h⟩

theorem witness_NoStepChangesTheConstants : ∃ t, step (hosting block .reset) = .next t := ⟨_, rfl⟩

theorem witness_NoStepRemovesAModelFault :
    let s : State := hosting { block with flog := [.resultNotValid] } .reset
    (∃ t, step s = .next t) ∧ ModelFault.resultNotValid ∈ s.flog := ⟨⟨_, rfl⟩, by decide⟩

/-- Both clauses, on a write of another operand register. -/
theorem witness_OnlyTheHostWritesBufferAndOperands :
    let s := hosting block (.wr (.operand .opa) 1)
    (∃ t, step s = .next t) ∧ (∀ addr bs rest, s.program ≠ .bytes addr bs :: rest) ∧
      (∀ addr b rest, s.program ≠ .byte addr b :: rest) ∧
      (∀ v rest, s.program ≠ .wr (.operand .opb) v :: rest) ∧ ∀ rest, s.program ≠ .reset :: rest :=
  ⟨⟨_, rfl⟩, (by intro _ _ _ h; cases h), (by intro _ _ _ h; cases h), (by intro _ _ h; cases h), by intro _ h; cases h⟩

/-- States of three stages meet the invariant and take a step. -/
theorem inv_block : block.Inv :=
  ⟨by decide, by decide, by decide, by decide, by decide, by decide, by decide, by decide,
    (by intro h; cases h), (by intro h; cases h), by decide, by decide, (by intro i h; cases h), by decide⟩

theorem inv_running : (running .rd64 0x1000 0 0 0 0).Inv :=
  ⟨by decide, by decide, by decide, by decide, by decide, by decide, by decide, by decide,
    (by intro h; cases h), (by intro h; cases h), by decide, by decide, (by intro i h; cases h; decide), by decide⟩

theorem inv_tail : (inStage .sTail 1 7 0x1000).Inv :=
  ⟨by decide, by decide, by decide, by decide, by decide, by decide, by decide, by decide,
    (by intro h; cases h), (by intro _ n h; cases h; decide), by decide, by decide, (by intro i h; cases h), by decide⟩

theorem witness_EveryStepKeepsTheInvariant :
    ((running .rd64 0x1000 0 0 0 0).Inv ∧ ∃ t, step (running .rd64 0x1000 0 0 0 0) = .next t) ∧
      (inStage .sTail 1 7 0x1000).Inv ∧ ∃ t, step (inStage .sTail 1 7 0x1000) = .next t :=
  ⟨⟨inv_running, _, rfl⟩, inv_tail, _, rfl⟩

theorem witness_StepsStopOnlyWhereTheRulesSay :
    block.Inv ∧ (∀ addr bs rest, block.program ≠ .bytes addr bs :: rest) ∧
      (∀ addr b rest, block.program ≠ .byte addr b :: rest) ∧ ∀ gs rest, block.program ≠ .readable gs :: rest :=
  ⟨inv_block, (by intro _ _ _ h; cases h), (by intro _ _ _ h; cases h), by intro _ _ h; cases h⟩

/-- Two instances over one buffer, in two systems that differ in the other instance. -/
theorem witness_InstancesDoNotObserveEachOther :
    let y : System := ⟨[block, hosting block (.wr (.operand .opa) 1)], bytes72⟩
    let y' : System := ⟨[running .mix 1 0 0 0 0, hosting block (.wr (.operand .opa) 1)], bytes72⟩
    (∃ z, System.step 1 y = .next z) ∧ y'.mem = y.mem ∧ y'.blocks[1]? = y.blocks[1]? ∧
      (∃ z', System.step 1 y' = .next z') ∧
      ∀ b, y.blocks[1]? = some b → (∀ addr bs rest, b.program ≠ .bytes addr bs :: rest) ∧
        ∀ addr v rest, b.program ≠ .byte addr v :: rest :=
  ⟨⟨_, rfl⟩, rfl, rfl, ⟨_, rfl⟩, by
    intro b hb
    cases hb
    exact ⟨(by intro _ _ _ h; cases h), by intro _ _ _ h; cases h⟩⟩

/-- The write bar (log entry 15): a buffer write that another instance's running command bars is refused. -/
theorem test_write_barred_by_the_other_instance :
    let write := hosting block (.bytes 0x1000 [1])
    (∃ z, System.step 1 ⟨[block, write], bytes72⟩ = .next z) ∧
      System.step 1 ⟨[running .mix 1 0 0 0 0, write], bytes72⟩ = .refused .bufferWriteWhileBusy :=
  ⟨⟨_, rfl⟩, rfl⟩

end Sys2Proof.Tests
end

/-! SUPPORT. Proofs of the statements about the block's scope: which steps change the constants, the buffer and the
operand registers, and that every step keeps the block's invariant. -/

namespace Sys2Proof.Machine

/-! ### What a host operation leaves alone -/

/-- No host operation writes the parameters (R10). -/
theorem hostStep_cfg {op : HostOp} {s t : State} (h : hostStep op s = .next t) : t.cfg = s.cfg := by
  rcases hostStep_cases h with ⟨_, _, h⟩ | ⟨_, _, _, rfl⟩ | ⟨_, _, rfl, _, _⟩ | ⟨_, _, h⟩ | ⟨_, _, _, rfl⟩ |
    ⟨_, rfl⟩ | ⟨_, _, rfl⟩ | ⟨_, h⟩
  case inl => exact (issueWord_keeps h).1
  case inr.inr.inr.inl | inr.inr.inr.inr.inr.inr.inr => exact (seqStep_keeps h).1
  all_goals rfl

/-- Only a host write of buffer bytes changes memory (R14, R40). -/
theorem hostStep_mem {op : HostOp} {s t : State} (h : hostStep op s = .next t) (hbytes : ∀ a bs, op ≠ .bytes a bs)
    (hbyte : ∀ a b, op ≠ .byte a b) : t.mem = s.mem := by
  rcases hostStep_cases h with ⟨_, _, h⟩ | ⟨_, _, _, rfl⟩ | ⟨_, _, rfl, _, _⟩ | ⟨_, _, h⟩ | ⟨a, bs, hop, rfl⟩ |
    ⟨_, rfl⟩ | ⟨_, _, rfl⟩ | ⟨_, h⟩
  case inl => exact (issueWord_keeps h).2.1
  case inr.inr.inr.inl | inr.inr.inr.inr.inr.inr.inr => exact (seqStep_keeps h).2.1
  case inr.inr.inr.inr.inl =>
    rcases hop with hop | ⟨b, hop⟩
    · exact absurd hop (hbytes a bs)
    · exact absurd hop (hbyte a b)
  all_goals rfl

/-- Only a host write of the register, or reset, changes an operand register (R21). -/
theorem hostStep_operand {op : HostOp} {s t : State} {r : OpReg} (h : hostStep op s = .next t)
    (hwr : ∀ v, op ≠ .wr (.operand r) v) (hreset : op ≠ .reset) : t.ops.get r = s.ops.get r := by
  rcases hostStep_cases h with ⟨_, _, h⟩ | ⟨q, v, hop, rfl⟩ | ⟨_, _, rfl, _, _⟩ | ⟨_, _, h⟩ | ⟨_, _, _, rfl⟩ |
    ⟨hop, _⟩ | ⟨_, _, rfl⟩ | ⟨_, h⟩
  case inl => rw [(issueWord_keeps h).2.2.1]
  case inr.inl =>
    have hrq : r ≠ q := fun heq => hwr v (heq ▸ hop)
    exact OperandFile.get_set_other _ v hrq
  case inr.inr.inr.inl | inr.inr.inr.inr.inr.inr.inr => rw [(seqStep_keeps h).2.2.1]
  case inr.inr.inr.inr.inr.inl => exact absurd hop hreset
  all_goals rfl

/-- Settles O54: the sequencer keeps the parameters, and so does every host operation. -/
theorem noStepChangesTheConstants : Obligations.NoStepChangesTheConstants := by
  intro s t h
  rcases step_cases h with ⟨_, rfl⟩ | ⟨_, h⟩ | ⟨_, _, _, h⟩
  · rfl
  · exact (seqStep_keeps h).1
  · exact (hostStep_cfg h :)

/-- Settles O56: the sequencer keeps memory and operands, and a host operation changes only what it writes. -/
theorem onlyTheHostWritesBufferAndOperands : Obligations.OnlyTheHostWritesBufferAndOperands := by
  intro s t h
  rcases step_cases h with ⟨_, rfl⟩ | ⟨_, h⟩ | ⟨op, rest, hprog, h⟩
  · exact ⟨fun _ _ => rfl, fun _ _ _ => rfl⟩
  · obtain ⟨_, hmem, hops, _⟩ := seqStep_keeps h
    exact ⟨fun _ _ => hmem, fun _ _ _ => by rw [hops]⟩
  · constructor
    · intro hbytes hbyte
      exact (hostStep_mem h (fun a bs hop => hbytes a bs rest (hop ▸ hprog))
        (fun a b hop => hbyte a b rest (hop ▸ hprog)) :)
    · intro r hwr hreset
      exact (hostStep_operand (r := r) h (fun v hop => hwr v rest (hop ▸ hprog))
        (fun hop => hreset rest (hop ▸ hprog)) :)

/-! ### The invariant, one update at a time -/

/-- Outside `S_EXEC` no single-step command is running. -/
theorem State.Inv.running_eq_none {s : State} (hs : s.Inv) (h : s.stage ≠ .sExec) : s.running = none :=
  Option.not_isSome_iff_eq_none.mp (mt hs.running_iff.mp h)

/-- Outside `FAULT` no cause is recorded. -/
theorem State.Inv.fcause_eq_none {s : State} (hs : s.Inv) (h : s.stage ≠ .fault) : s.fcause = .none :=
  Decidable.not_not.mp (mt hs.cause_iff.mp h)

/-- The invariant reads none of the host's fields but memory, whose form it fixes, and `FLOG` only as a set. -/
theorem State.Inv.withHostFields {s : State} (hs : s.Inv) {m : Memory} (hm : Memory.wf m) {l : List ModelFault}
    (hl : l.Nodup) (o : OperandFile) (gs : List Region) (prog : List HostOp) (rd : List HostRead) :
    State.Inv { s with ops := o, flog := l, mem := m, readable := gs, program := prog, reads := rd } :=
  { hs with mem_wf := hm, flog_nodup := hl }

theorem State.Inv.withProgram {s : State} (hs : s.Inv) (prog : List HostOp) : State.Inv { s with program := prog } :=
  hs.withHostFields hs.mem_wf hs.flog_nodup ..

theorem inv_recordFault {s : State} (hs : s.Inv) (f : ModelFault) : (recordFault f s).Inv :=
  hs.withHostFields hs.mem_wf (flogAdd_nodup f hs.flog_nodup) ..

theorem State.Inv.quiet {s t : State} (hs : s.Inv) (h : Quiet s t) : t.Inv := by
  obtain ⟨l, rd, rfl, _, hl⟩ := h
  exact hs.withHostFields hs.mem_wf (hl hs.flog_nodup) ..

/-- A hardware fault with a cause keeps the invariant: every register it speaks of is left without a value (R172). -/
theorem inv_raiseFault {s : State} (hs : s.Inv) {k : FCause} (hk : k ≠ .none) : (raiseFault k s).Inv :=
  { hs with
    cause_iff := iff_of_true hk rfl
    y_iff := by simp
    h_iff := rfl
    n_iff := rfl
    p_iff := rfl
    n_word := nofun
    n_tail := nofun
    n_final := nofun
    running_iff := by simp
    latched := nofun
    fault_latches := fun _ => rfl }

/-- Reset leads to the invariant from every state whose constants, memory and `FLOG`, which it leaves, are as they should
be (R190). -/
theorem inv_applyReset {s : State} (hcfg : s.cfg.Lawful) (hmem : Memory.wf s.mem) (hflog : s.flog.Nodup) :
    (applyReset s).Inv where
  lawful := hcfg
  mem_wf := hmem
  flog_nodup := hflog
  cause_iff := by simp
  y_iff := by simp
  h_iff := rfl
  n_iff := rfl
  p_iff := rfl
  n_word := nofun
  n_tail := nofun
  n_final := nofun
  running_iff := by simp
  latched := nofun
  fault_latches := nofun

/-- Settles O57: the start of a run is what reset makes of it, and the free constants are odd. -/
theorem resetStateMeetsTheInvariant : Obligations.ResetStateMeetsTheInvariant := by
  unfold Obligations.ResetStateMeetsTheInvariant
  have hreset : State.reset = applyReset State.reset := rfl
  rw [hreset]
  exact inv_applyReset powerOn_lawful Memory.reset_wf List.nodup_nil

/-! ### The invariant over an issue and a completion -/

/-- In the stages that take a command, no driver stage's registers are in use, no command runs and no fault stands. -/
theorem State.Issuable.stage_facts {s : State} (hi : s.Issuable) :
    s.stage.driver = false ∧ s.stage ≠ .sExec ∧ s.stage ≠ .fault := by
  rcases hi with h | h <;> rw [h] <;> decide

/-- A single-step command starts with its operands latched (R67). -/
theorem inv_startSingle {s : State} (hs : s.Inv) (hi : s.Issuable) {i : Instr} {f : OperandFile}
    (hdriver : Instr.isDriver i = false) (hlatched : ∀ r ∈ operandsRead i, (f.get r).isKnown = true) :
    (startSingle i f s).Inv := by
  obtain ⟨hstage, _, hfault⟩ := hi.stage_facts
  have hcause : s.fcause = .none := hs.fcause_eq_none hfault
  exact { hs with
    cause_iff := by simp [hcause]
    y_iff := by simp
    h_iff := hs.h_iff.trans hstage
    n_iff := hs.n_iff.trans hstage
    p_iff := hs.p_iff.trans hstage
    n_word := nofun
    n_tail := nofun
    n_final := nofun
    running_iff := by simp
    latched := by
      intro j hj
      cases hj
      exact ⟨hdriver, hlatched⟩
    fault_latches := nofun }

/-- A driver command starts with `H`, `N` and `P` holding values (R131), and no single-step command running. -/
theorem inv_startDriver {s : State} (hs : s.Inv) (hi : s.Issuable) (base len seed : Word) :
    (startDriver base len seed s).Inv := by
  obtain ⟨_, hexec, hfault⟩ := hi.stage_facts
  have hcause : s.fcause = .none := hs.fcause_eq_none hfault
  have hrun : s.running = none := hs.running_eq_none hexec
  exact { hs with
    cause_iff := by simp [hcause]
    y_iff := by simp
    h_iff := rfl
    n_iff := rfl
    p_iff := rfl
    n_word := nofun
    n_tail := nofun
    n_final := nofun
    running_iff := by simp [hrun]
    fault_latches := nofun }

/-- A single-step command completes with its result in `Y` and `H`, `N`, `P` still without a value (R67). -/
theorem inv_completeSingle {s : State} (hs : s.Inv) (hst : s.stage = .sExec) (v : Word) :
    (completeSingle v s).Inv := by
  have hstage : s.stage.driver = false := by rw [hst]; rfl
  have hcause : s.fcause = .none := hs.fcause_eq_none (by simp [hst])
  exact { hs with
    cause_iff := by simp [hcause]
    y_iff := by simp
    h_iff := hs.h_iff.trans hstage
    n_iff := hs.n_iff.trans hstage
    p_iff := hs.p_iff.trans hstage
    n_word := nofun
    n_tail := nofun
    n_final := nofun
    running_iff := by simp
    latched := nofun
    fault_latches := nofun }

/-- A driver command completes with its result in `Y` and nothing left in `H`, `N`, `P` (R137). -/
theorem inv_completeDriver {s : State} (hs : s.Inv) (hst : s.stage = .sFinal) (v : Word) :
    (completeDriver v s).Inv := by
  have hcause : s.fcause = .none := hs.fcause_eq_none (by simp [hst])
  have hrun : s.running = none := hs.running_eq_none (by simp [hst])
  exact { hs with
    cause_iff := by simp [hcause]
    y_iff := by simp
    h_iff := rfl
    n_iff := rfl
    p_iff := rfl
    n_word := nofun
    n_tail := nofun
    n_final := nofun
    running_iff := by simp [hrun]
    fault_latches := nofun }

/-! ### The invariant over the driver's stages -/

/-- The bound the invariant puts on the remaining length in each stage: fewer than 64 bytes after `S_BLOCK`, fewer than 8
after `S_WORD`, none after `S_TAIL` (R134 to R136). -/
def remainingBound : Stage → Nat
  | .sWord => 64
  | .sTail => 8
  | .sFinal => 1
  | _ => 2 ^ 64

/-- A driver stage is none of those in which a single-step command runs, a result stands or a fault stands. -/
theorem Stage.ne_of_driver {g : Stage} (h : g.driver = true) : g ≠ .sExec ∧ g ≠ .done ∧ g ≠ .fault := by
  refine ⟨?_, ?_, ?_⟩ <;> rintro rfl <;> exact absurd h (by decide)

/-- Within a driver command, a move to a driver stage keeps the invariant when `H`, `N` and `P` hold values and the
remaining length is within the new stage's bound. -/
theorem State.Inv.driverMove {s : State} (hs : s.Inv) (hd : s.stage.driver = true) {g : Stage} (hg : g.driver = true)
    {h n : Held Word} {p : Held Nat} {v : Word} (hh : h.isKnown = true) (hn : n = .known v) (hp : p.isKnown = true)
    (hbound : v.toNat < remainingBound g) : State.Inv { s with h := h, n := n, p := p, stage := g } := by
  subst hn
  obtain ⟨hexec, hdone, hfault⟩ := Stage.ne_of_driver hd
  obtain ⟨hexec', hdone', hfault'⟩ := Stage.ne_of_driver hg
  exact { hs with
    cause_iff := iff_of_false (mt hs.cause_iff.mp hfault) hfault'
    y_iff := iff_of_false (mt hs.y_iff.mp hdone) hdone'
    h_iff := hh.trans hg.symm
    n_iff := hg.symm
    p_iff := hp.trans hg.symm
    n_word := by
      rintro rfl m hm
      cases hm
      exact hbound
    n_tail := by
      rintro rfl m hm
      cases hm
      exact hbound
    n_final := by
      rintro rfl
      have hzero : v = 0 := BitVec.eq_of_toNat_eq (Nat.lt_one_iff.mp hbound)
      rw [hzero]
    running_iff := iff_of_false (mt hs.running_iff.mp hexec) hexec'
    fault_latches := fun hg => absurd hg hfault' }

/-- Every step of the sequencer keeps the invariant. -/
theorem inv_seqStep {s t : State} (hs : s.Inv) (h : seqStep s = .next t) : t.Inv := by
  rcases seqStep_cases h with ⟨_, rfl⟩ | ⟨_, a, _, rfl⟩ | ⟨hst, _, v, _, _, rfl⟩ | ⟨x, n, p, hh, hn, hp, hstep⟩
  · exact hs
  · exact inv_recordFault hs _
  · exact inv_completeSingle hs hst v
  · have hhk : s.h.isKnown = true := by rw [hh]; rfl
    have hpk : s.p.isKnown = true := by rw [hp]; rfl
    have hd : s.stage.driver = true := hs.h_iff.symm.trans hhk
    rcases hstep with ⟨hst, _, _, rfl⟩ | ⟨hst, hlt, rfl⟩ | ⟨hst, hge, _, rfl⟩ | ⟨hst, hlt, rfl⟩ | ⟨hst, h0, rfl⟩ |
      ⟨hst, _, _, _, rfl⟩ | ⟨hst, rfl⟩
    · have hbound : (n - 64).toNat < remainingBound s.stage := by rw [hst]; exact (n - 64).isLt
      exact hs.driverMove hd hd rfl rfl rfl hbound
    · exact hs.driverMove hd rfl hhk hn hpk hlt
    · have hn64 : n.toNat < 64 := hs.n_word hst n hn
      have hbound : (n - 8).toNat < remainingBound s.stage := by
        rw [hst]
        change (n - 8).toNat < 64
        bv_omega
      exact hs.driverMove hd hd rfl rfl rfl hbound
    · exact hs.driverMove hd rfl hhk hn hpk hlt
    · exact hs.driverMove hd rfl hhk rfl hpk (by decide)
    · exact hs.driverMove hd rfl rfl rfl hpk (by decide)
    · exact inv_completeDriver hs hst _

/-! ### The invariant over a step -/

/-- Every issue keeps the invariant. -/
theorem inv_issueWord {w : Word} {s t : State} (hs : s.Inv) (h : issueWord w s = .next t) : t.Inv := by
  rcases issueWord_cases h with ⟨_, rfl⟩ | ⟨_, rfl⟩ |
    ⟨hi, rfl | ⟨r, rfl⟩ | ⟨b, l, d, rfl⟩ | ⟨i, f, rfl, hdriver, hlatched⟩⟩
  · exact inv_raiseFault hs (by decide)
  · exact hs
  · exact inv_raiseFault hs (by decide)
  · exact inv_recordFault hs _
  · exact inv_startDriver hs hi b l d
  · exact inv_startSingle hs hi hdriver hlatched

/-- Every host operation keeps the invariant. -/
theorem inv_hostStep {op : HostOp} {s t : State} (hs : s.Inv) (h : hostStep op s = .next t) : t.Inv := by
  rcases hostStep_cases h with ⟨w, _, h⟩ | ⟨r, v, _, rfl⟩ | hquiet | ⟨_, _, h⟩ | ⟨a, bs, _, rfl⟩ | ⟨_, rfl⟩ |
    ⟨gs, _, rfl⟩ | ⟨_, h⟩
  · exact inv_issueWord hs h
  · exact hs.withHostFields hs.mem_wf hs.flog_nodup ..
  · exact hs.quiet hquiet
  · exact inv_seqStep (hs.withProgram _) h
  · exact hs.withHostFields (Memory.writeBytes_wf a bs hs.mem_wf) hs.flog_nodup ..
  · exact inv_applyReset hs.lawful hs.mem_wf hs.flog_nodup
  · exact hs.withHostFields hs.mem_wf hs.flog_nodup ..
  · exact inv_seqStep hs h

/-- Settles O58: the sequencer keeps the invariant, and so does every host operation, the program being none of its
fields. -/
theorem everyStepKeepsTheInvariant : Obligations.EveryStepKeepsTheInvariant := by
  intro s t hs h
  rcases step_cases h with ⟨_, rfl⟩ | ⟨_, h⟩ | ⟨op, rest, _, h⟩
  · exact hs
  · exact inv_seqStep hs h
  · exact inv_hostStep (hs.withProgram rest) h

end Sys2Proof.Machine

/-! SUPPORT. Proofs of the statements about the block's registers and its `STAGE`: the moves of `STAGE`, the fields of
`STATUS`, the host's register accesses, and that a running command does not read the operand registers. -/

namespace Sys2Proof.Machine

/-! ### The moves of `STAGE` -/

/-- The moves of the sequencer between stages (R27, R67, R133 to R137). -/
def sequencerMoves : List (Stage × Stage) :=
  [(.sExec, .done), (.sBlock, .sWord), (.sWord, .sTail), (.sTail, .sFinal), (.sFinal, .done)]

/-- A sequencer step stays in its stage or takes one of the sequencer's moves. -/
theorem seqStep_stage {s t : State} (h : seqStep s = .next t) :
    t.stage = s.stage ∨ (s.stage, t.stage) ∈ sequencerMoves := by
  rcases seqStep_cases h with ⟨_, rfl⟩ | ⟨_, _, _, rfl⟩ | ⟨hst, _, _, _, _, rfl⟩ | ⟨_, _, _, _, _, _, hstep⟩
  · exact .inl rfl
  · exact .inl rfl
  · exact .inr (by simp [hst, sequencerMoves])
  · rcases hstep with ⟨_, _, _, rfl⟩ | ⟨hst, _, rfl⟩ | ⟨_, _, _, rfl⟩ | ⟨hst, _, rfl⟩ | ⟨hst, _, rfl⟩ |
      ⟨hst, _, _, _, rfl⟩ | ⟨hst, rfl⟩
    · exact .inl rfl
    · exact .inr (by simp [hst, sequencerMoves])
    · exact .inl rfl
    all_goals exact .inr (by simp [hst, sequencerMoves])

/-- A `CMD` write stays in its stage, faults out of a busy stage, or, where a command may be issued, faults or starts one
(R67, R172). -/
theorem issueWord_stage {w : Word} {s t : State} (h : issueWord w s = .next t) :
    t.stage = s.stage ∨ (busy s = true ∧ t.stage = .fault) ∨
      (s.Issuable ∧ (t.stage = .fault ∨ t.stage = .sExec ∨ t.stage = .sBlock)) := by
  rcases issueWord_cases h with ⟨hbusy, rfl⟩ | ⟨_, rfl⟩ |
    ⟨hi, rfl | ⟨_, rfl⟩ | ⟨_, _, _, rfl⟩ | ⟨_, _, rfl, _, _⟩⟩
  · exact .inr (.inl ⟨hbusy, rfl⟩)
  · exact .inl rfl
  · exact .inr (.inr ⟨hi, .inl rfl⟩)
  · exact .inl rfl
  · exact .inr (.inr ⟨hi, .inr (.inr rfl)⟩)
  · exact .inr (.inr ⟨hi, .inr (.inl rfl)⟩)

/-- Settles O52: a host operation other than a `CMD` write and reset leaves `STAGE`, or is a moment in which the sequencer
steps (`WAIT` and `seq`). -/
theorem stageMovesOnlyAlongItsRules : Obligations.StageMovesOnlyAlongItsRules := by
  intro s t h
  rcases step_cases h with ⟨_, rfl⟩ | ⟨_, h⟩ | ⟨op, rest, hprog, h⟩
  · exact .inl rfl
  · exact (seqStep_stage h).imp_right .inl
  · rcases hostStep_cases h with ⟨w, rfl, h⟩ | ⟨_, _, _, rfl⟩ | ⟨_, _, rfl, _, _⟩ | ⟨_, _, h⟩ | ⟨_, _, _, rfl⟩ |
      ⟨rfl, rfl⟩ | ⟨_, _, rfl⟩ | ⟨_, h⟩
    · exact (issueWord_stage h).imp_right fun hmove => .inr (.inl ⟨w, rest, hprog, hmove⟩)
    · exact .inl rfl
    · exact .inl rfl
    · exact (seqStep_stage h).imp_right .inl
    · exact .inl rfl
    · exact .inr (.inr (.inr ⟨rest, hprog, rfl⟩))
    · exact .inl rfl
    · exact (seqStep_stage h).imp_right .inl

/-! ### A running command and the operand registers -/

/-- The state with its operand registers changed to `f`. -/
def State.withOps (s : State) (f : OperandFile) : State := { s with ops := f }

/-- The answer of a step with the operand registers of its next state changed to `f`. -/
def outWithOps (f : OperandFile) : Out → Out
  | .next t => .next (t.withOps f)
  | .fault r => .fault r
  | .refused r => .refused r

section
variable (s : State) (f : OperandFile)

@[simp] theorem withOps_stage : (s.withOps f).stage = s.stage := rfl
@[simp] theorem withOps_running : (s.withOps f).running = s.running := rfl
@[simp] theorem withOps_h : (s.withOps f).h = s.h := rfl
@[simp] theorem withOps_n : (s.withOps f).n = s.n := rfl
@[simp] theorem withOps_p : (s.withOps f).p = s.p := rfl

/-- The admission of a read does not look at the operand registers. -/
@[simp] theorem checkedRead_withOps (a n : Nat) (v : Word) :
    checkedRead (s.withOps f) a n v = checkedRead s a n v := by
  unfold checkedRead
  rw [firstUnreadable_congr (s := s) (t := s.withOps f) rfl rfl]

@[simp] theorem memRead_withOps (a n : Nat) : memRead (s.withOps f) a n = memRead s a n :=
  checkedRead_withOps s f a n _

theorem readerResult_withOps (n : Nat) : readerResult n (s.withOps f) = readerResult n s := by
  simp only [readerResult, memRead_withOps]
  rfl

/-- A single-step command's result comes from the latches (R33, R67). -/
@[simp] theorem singleResult_withOps (i : Instr) : singleResult i (s.withOps f) = singleResult i s := by
  cases i
  case rd8 | rd16 | rd32 | rd64 => exact readerResult_withOps s f _
  all_goals rfl

theorem execStep_withOps : execStep (s.withOps f) = outWithOps f (execStep s) := by
  simp only [execStep, withOps_running, singleResult_withOps]
  cases s.running with
  | none => rfl
  | some i =>
    dsimp only
    rcases singleResult i s with (_ | _) | _ <;> rfl

/-- The end of a step that reads touches no operand register when the state it goes on to does not. -/
theorem readOrRecord_withOps {next next' : Word → State} (hnext : ∀ v, next' v = (next v).withOps f)
    (e : Except Nat Word) : readOrRecord (s.withOps f) next' e = (readOrRecord s next e).withOps f := by
  cases e with
  | ok v => exact hnext v
  | error a => rfl

variable (h n : Word) (p : Nat)

theorem blockStep_withOps : blockStep h n p (s.withOps f) = outWithOps f (blockStep h n p s) := by
  simp only [blockStep, checkedRead_withOps]
  split
  · exact congrArg _ (readOrRecord_withOps s f (fun _ => by rfl) _)
  · rfl

theorem wordStep_withOps : wordStep h n p (s.withOps f) = outWithOps f (wordStep h n p s) := by
  simp only [wordStep, memRead_withOps]
  split
  · exact congrArg _ (readOrRecord_withOps s f (fun _ => by rfl) _)
  · rfl

theorem tailStep_withOps : tailStep h n p (s.withOps f) = outWithOps f (tailStep h n p s) := by
  simp only [tailStep, checkedRead_withOps]
  split
  · rfl
  · split
    · exact congrArg _ (readOrRecord_withOps s f (fun _ => by rfl) _)
    · rfl

theorem finalStep_withOps : finalStep h n p (s.withOps f) = outWithOps f (finalStep h n p s) := rfl

end

/-- A driver stage touches no operand register when its step on the values of `H`, `N` and `P` does not. -/
theorem driverStep_withOps {g : Word → Word → Nat → State → Out} {s : State} {f : OperandFile}
    (hg : ∀ h n p, g h n p (s.withOps f) = outWithOps f (g h n p s)) :
    driverStep g (s.withOps f) = outWithOps f (driverStep g s) := by
  simp only [driverStep, withOps_h, withOps_n, withOps_p]
  split
  · exact hg ..
  · rfl

/-- The sequencer neither reads nor writes the operand registers: changing them before its step or after it is the
same. -/
theorem seqStep_withOps (s : State) (f : OperandFile) : seqStep (s.withOps f) = outWithOps f (seqStep s) := by
  unfold seqStep
  rw [withOps_stage]
  cases s.stage with
  | idle | done | fault => rfl
  | sExec => exact execStep_withOps s f
  | sBlock => exact driverStep_withOps (blockStep_withOps s f)
  | sWord => exact driverStep_withOps (wordStep_withOps s f)
  | sTail => exact driverStep_withOps (tailStep_withOps s f)
  | sFinal => exact driverStep_withOps (finalStep_withOps s f)

/-- Settles O18: what the sequencer does, in a busy stage as in any other, does not depend on the operand registers. -/
theorem operandWritesDoNotReachARunningCommand : Obligations.OperandWritesDoNotReachARunningCommand := by
  intro s t f _ hstep
  calc seqStep (s.withOps f)
    _ = outWithOps f (seqStep s) := seqStep_withOps s f
    _ = outWithOps f (.next t) := by rw [hstep]

/-! ### The fields of `STATUS` -/

/-- The code of a fault cause is 0, 1 or 2 (R171). -/
theorem FCause.code_le (c : FCause) : c.code.toNat ≤ 2 := by
  cases c <;> decide

/-- The busy stages by name (R23). -/
theorem Stage.busy_iff (g : Stage) :
    g.busy = true ↔ g = .sExec ∨ g = .sBlock ∨ g = .sWord ∨ g = .sTail ∨ g = .sFinal := by
  cases g <;> simp [Stage.busy]

section
variable (s : State)

@[simp] theorem statusWord_busy : (statusWord s).getLsbD 0 = busy s := by
  simp [statusWord]

@[simp] theorem statusWord_done : (statusWord s).getLsbD 1 = done s := by
  simp [statusWord]

@[simp] theorem statusWord_faulted : (statusWord s).getLsbD 2 = faulted s := by
  simp [statusWord]

/-- The reserved bits between the flags and `FCAUSE` are zero. -/
theorem statusWord_rsvd_low : (statusWord s).extractLsb' 3 5 = 0 := by
  ext i hi
  have hflags : 3 + i - 2 ≠ 0 := by omega
  have hfcause : 3 + i < 8 := by omega
  simp [statusWord, hflags, hfcause]

theorem statusWord_fcause : (statusWord s).extractLsb' 8 4 = fcauseField s := by
  refine BitVec.eq_of_getLsbD_eq fun i hi => ?_
  have hflags : 8 + i - 2 ≠ 0 := by omega
  have hwidth : 8 + i < 64 := by omega
  simp [statusWord, hi, hflags, hwidth]

/-- The reserved bits above `FCAUSE` are zero. -/
theorem statusWord_rsvd_high : (statusWord s).extractLsb' 12 52 = 0 := by
  ext i hi
  have hflags : 12 + i - 2 ≠ 0 := by omega
  have hfcause : 4 ≤ 12 + i - 8 := by omega
  simp [statusWord, hflags, hfcause]

end

theorem fcauseField_of_fault {s : State} (h : s.stage = .fault) : fcauseField s = s.fcause.code :=
  if_pos ((faulted_iff s).mpr h)

theorem fcauseField_of_ne_fault {s : State} (h : s.stage ≠ .fault) : fcauseField s = 0 :=
  if_neg (mt (faulted_iff s).mp h)

theorem fcauseField_le (s : State) : (fcauseField s).toNat ≤ 2 := by
  by_cases h : s.stage = .fault
  · rw [fcauseField_of_fault h]
    exact s.fcause.code_le
  · rw [fcauseField_of_ne_fault h]
    decide

/-- The word in `FAULT` (R23). -/
theorem statusWord_of_fault {s : State} (h : s.stage = .fault) :
    statusWord s = 4 ||| zext64 s.fcause.code <<< 8 := by
  simp [statusWord, fcauseField_of_fault h, done, faulted, h, Stage.busy]

/-- `STATUS` is zero exactly when none of the flags is set (R23). -/
theorem statusWord_eq_zero_iff (s : State) : statusWord s = 0 ↔ s.stage = .idle := by
  constructor
  · intro h
    have hbusy : busy s = false := by rw [← statusWord_busy, h]; rfl
    have hdone : s.stage ≠ .done := by rw [Ne, ← done_iff, ← statusWord_done, h]; decide
    have hfault : s.stage ≠ .fault := by rw [Ne, ← faulted_iff, ← statusWord_faulted, h]; decide
    rcases stage_cases s with hst | hst | hst | hst
    · exact absurd hst (Bool.eq_false_iff.mp hbusy)
    · exact absurd hst hfault
    · exact hst
    · exact absurd hst hdone
  · intro h
    simp [statusWord, fcauseField, done, faulted, h, Stage.busy]

/-- Settles O41: each field of `STATUS` is read off its own bits. -/
theorem statusFieldsFollowTheStage : Obligations.StatusFieldsFollowTheStage := by
  intro s
  refine ⟨?_, ?_, ?_, statusWord_rsvd_low s, statusWord_rsvd_high s, ?_, ?_, ?_, ?_, statusWord_eq_zero_iff s⟩
  · rw [statusWord_busy]
    exact s.stage.busy_iff
  · rw [statusWord_done, done_iff]
  · rw [statusWord_faulted, faulted_iff]
  · intro hst hcause
    rw [statusWord_of_fault hst, hcause]
    rfl
  · intro hst hcause
    rw [statusWord_of_fault hst, hcause]
    rfl
  · intro hst
    rw [statusWord_fcause, fcauseField_of_ne_fault hst]
  · rw [statusWord_fcause]
    exact fcauseField_le s

/-! ### The host's register accesses -/

/-- Recording a model fault stops the block exactly when that fault does (R173). -/
theorem stuck_recordFault (f : ModelFault) (s : State) : stuck (recordFault f s) = (stuck s || f.sticks) := by
  rw [Bool.eq_iff_iff, stuck_iff]
  simp only [recordFault_flog, mem_flogAdd, or_and_right, exists_or, exists_eq_left, Bool.or_eq_true, stuck_iff]

/-- A register the host may not read returns no value, and the access is recorded (R22, R173). -/
theorem hostRead_bad {r : Reg} (h : r.hostReadable = false) (s : State) :
    hostRead r s = noteRead r none (recordFault (.badRegAccess r) s) := by
  cases r with
  | cmd | reserved => rfl
  | status | operand | y => cases h

/-- A write of a register the host may not write is recorded and has no other effect (R22, R173). -/
theorem hostWrite_bad {r : Reg} (h : r.hostWritable = false) (v : Word) (s : State) :
    hostWrite r v s = .next (recordFault (.badRegAccess r) s) := by
  cases r with
  | status | y | reserved => rfl
  | cmd | operand => cases h

/-- A host read of an operand register that holds a value returns it (R21). -/
theorem readOperand_known {s : State} {r : OpReg} {v : Word} (h : s.ops.get r = .known v) :
    readOperand r s = noteRead (.operand r) (some v) s := by
  simp [readOperand, h]

/-- Settles O43: the write leaves the block not stuck, and the read that follows finds the value written. -/
theorem operandRegistersHoldTheLastWrite : Obligations.OperandRegistersHoldTheLastWrite := by
  intro s r v rest hstuck hprog
  let t := writeOperand r v { s with program := .rd (.operand r) :: rest }
  have hstuck' : stuck t = false := hstuck
  have hread : t.ops.get r = .known v := OperandFile.get_set_same s.ops r v
  refine ⟨t, step_host hstuck hprog, rfl, fun q hq => OperandFile.get_set_other s.ops v hq, ?_⟩
  calc step t
    _ = .next (readOperand r { t with program := rest }) := step_host hstuck' rfl
    _ = .next { t with program := rest, reads := ⟨.operand r, some v⟩ :: t.reads } :=
      congrArg Host.Outcome.next (readOperand_known hread)

/-- Settles O45: a bad read and a bad write are each the record alone, and `BadRegAccess` does not stop the block. -/
theorem badRegisterAccessIsRecordedOnly : Obligations.BadRegisterAccessIsRecordedOnly := by
  intro s op r v rest hstuck hprog hop
  let t := recordFault (.badRegAccess r) { s with program := rest }
  have hflog : ∀ f, f ∈ t.flog ↔ f ∈ s.flog ∨ f = .badRegAccess r := mem_flogAdd s.flog _
  have hstuck' : stuck t = false := by
    rw [stuck_recordFault]
    exact Bool.or_eq_false_iff.mpr ⟨hstuck, rfl⟩
  rcases hop with ⟨rfl, hr⟩ | ⟨rfl, hr⟩
  · have hbad : r.hostReadable = false := by rcases hr with rfl | ⟨k, rfl⟩ <;> rfl
    have hstep : step s = .next (noteRead r none t) := by
      rw [step_host hstuck hprog, hostStep, hostRead_bad hbad]
    exact ⟨_, hstep, rfl, hflog, (if_pos rfl).symm, hstuck'⟩
  · have hbad : r.hostWritable = false := by rcases hr with rfl | rfl | ⟨k, rfl⟩ <;> rfl
    have hstep : step s = .next t := by
      rw [step_host hstuck hprog, hostStep, hostWrite_bad hbad]
    exact ⟨_, hstep, rfl, hflog, (if_neg nofun).symm, hstuck'⟩

/-- Settles O42: the read is noted, and taking it off the program is all the rest of the step. -/
theorem statusReadHasNoSideEffect : Obligations.StatusReadHasNoSideEffect := by
  intro s rest hstuck hprog
  exact step_host hstuck hprog

/-! ### The fault log -/

/-- No sequencer step removes an entry of `FLOG` (R31). -/
theorem seqStep_flog {s t : State} (h : seqStep s = .next t) : ∀ f ∈ s.flog, f ∈ t.flog := by
  obtain ⟨_, _, _, hflog, _⟩ := seqStep_keeps h
  exact hflog

/-- No host operation removes an entry of `FLOG` (R31). -/
theorem hostStep_flog {op : HostOp} {s t : State} (h : hostStep op s = .next t) : ∀ f ∈ s.flog, f ∈ t.flog := by
  rcases hostStep_cases h with ⟨_, _, h⟩ | ⟨_, _, _, rfl⟩ | ⟨_, _, rfl, hflog, _⟩ | ⟨_, _, h⟩ | ⟨_, _, _, rfl⟩ |
    ⟨_, rfl⟩ | ⟨_, _, rfl⟩ | ⟨_, h⟩
  case inl =>
    obtain ⟨_, _, _, hflog⟩ := issueWord_keeps h
    exact hflog
  case inr.inr.inl => exact hflog
  case inr.inr.inr.inl | inr.inr.inr.inr.inr.inr.inr => exact (seqStep_flog h :)
  all_goals exact fun _ hf => hf

/-- Settles O55: neither the sequencer nor a host operation removes an entry, and a stuck block stays as it is. -/
theorem noStepRemovesAModelFault : Obligations.NoStepRemovesAModelFault := by
  intro s t h
  rcases step_cases h with ⟨_, rfl⟩ | ⟨_, h⟩ | ⟨_, _, _, h⟩
  · exact fun _ hf => hf
  · exact (seqStep_flog h :)
  · exact (hostStep_flog h :)

/-! ### Register indices and the reset state -/

theorem Reg.ofIndex_index (r : Reg) : Reg.ofIndex r.index = r := by
  cases r with
  | cmd | status | y => rfl
  | operand r => cases r <;> rfl
  | reserved k => revert k; decide

theorem Reg.index_ofIndex : ∀ k : Fin 16, (Reg.ofIndex k).index = k := by
  decide

/-- Settles O4: the two maps are inverse to each other, and the numbers are R20's. -/
theorem registerIndicesAreOneToOne : Obligations.RegisterIndicesAreOneToOne :=
  ⟨Reg.ofIndex_index, Reg.index_ofIndex, rfl, rfl, rfl, rfl, rfl, rfl, rfl, rfl⟩

/-- Settles O50: the state at the start of a run is in `IDLE` with no register holding a value. -/
theorem resetStateHoldsNoValues : Obligations.ResetStateHoldsNoValues :=
  ⟨reset_stage, (statusWord_eq_zero_iff State.reset).mpr reset_stage, noOperands_isKnown, noY_isKnown, noH_isKnown,
    noN_isKnown, noP_isKnown, noLatches_isKnown, reset_flog, rfl⟩

end Sys2Proof.Machine

/-! SUPPORT. Proofs of the statements about the buffer space: its read primitive, the host's writes of buffer bytes, and
the blocks that share it. -/

namespace Sys2Proof.Machine

/-! ### The read primitive -/

/-- The admission test of a byte read, as R40 to R42 word it. -/
theorem readableByte_iff (s : State) (a : Nat) :
    readableByte s a = true ↔ a < 2 ^ s.cfg.addrW ∧ ∃ g ∈ s.readable, g.base ≤ a ∧ a < g.base + g.size := by
  simp [readableByte, inSpace, inReadable, Region.holds]

/-- Settles O33: an admitted read is the fold over its byte offsets, and a read that is not stops at its lowest
unreadable byte. -/
theorem memReadIsLittleEndianOrTheLowestOverread : Obligations.MemReadIsLittleEndianOrTheLowestOverread := by
  intro s a n
  refine ⟨readableByte_iff s a, fun hread => ?_, fun k hk hread hbad => checkedRead_lowest _ hk hread hbad⟩
  rw [memRead_ok hread, readLe_eq_foldl]

/-- Settles O34: a read of `m + m` bytes is two reads of `m` bytes, the second one above the first. -/
theorem mixedWidthReadsAgree : Obligations.MixedWidthReadsAgree := by
  intro s a m _ hread
  have hlo : s.Readable a m := fun k hk => hread k (by omega)
  have hhi : s.Readable (a + m) m := by
    intro k hk
    rw [Nat.add_assoc]
    exact hread (m + k) (by omega)
  refine ⟨_, _, _, memRead_ok hread, memRead_ok hlo, memRead_ok hhi, ?_⟩
  rw [Nat.two_mul, readLe_append]

/-! ### Host writes of buffer bytes -/

/-- A write that reaches past the buffer space faults, barred or not (log entry 10). -/
theorem writeBuffer_noSuchByte {addr k : Nat} {bs : List Byte} {s : State} (barred : Bool) (hk : k < bs.length)
    (hpast : 2 ^ s.cfg.addrW ≤ addr + k) : writeBuffer barred addr bs s = .fault .noSuchByte := by
  refine if_pos (List.any_eq_true.mpr ⟨k, List.mem_range.mpr hk, ?_⟩)
  simpa [inSpace] using hpast

/-- Within the buffer space a write is refused exactly when the host is barred from it. -/
theorem writeBuffer_inSpace {addr : Nat} {bs : List Byte} {s : State} (barred : Bool)
    (hin : ∀ k, k < bs.length → addr + k < 2 ^ s.cfg.addrW) :
    writeBuffer barred addr bs s =
      if barred then .refused .bufferWriteWhileBusy else .next { s with mem := Memory.writeBytes s.mem addr bs } := by
  refine if_neg ?_
  simpa [inSpace] using hin

/-- The step of a buffer write. `BYTES` is barred while busy (R69), the single write only from a byte of `R_READABLE`
(R49). -/
theorem step_bufferWrite {s : State} {op : HostOp} {addr : Nat} {bs : List Byte} {rest : List HostOp}
    (hstuck : stuck s = false) (hprog : s.program = op :: rest)
    (hop : op = .bytes addr bs ∨ ∃ b, bs = [b] ∧ op = .byte addr b) :
    ∃ barred, step s = writeBuffer barred addr bs { s with program := rest } ∧
      (barred = true ↔
        busy s = true ∧ (op = .bytes addr bs ∨ ∃ k, k < bs.length ∧ inReadable s (addr + k) = true)) := by
  have hstep := step_host hstuck hprog
  rcases hop with rfl | ⟨b, rfl, rfl⟩
  · exact ⟨busy s, hstep, by simp⟩
  · exact ⟨busy s && inReadable s addr, hstep, by simp⟩

/-- After a write each written address holds its byte. -/
theorem byteAt_writeBytes_written {s t : State} {addr k : Nat} {bs : List Byte} {b : Byte}
    (hmem : t.mem = Memory.writeBytes s.mem addr bs) (hb : bs[k]? = some b) : byteAt t (addr + k) = b := by
  obtain ⟨hk, -⟩ := List.getElem?_eq_some_iff.mp hb
  rw [byteAt, hmem, Memory.read_writeBytes, if_pos (by omega), Nat.add_sub_cancel_left, hb, Option.getD_some]

/-- After a write every address that was not written holds what it held. -/
theorem byteAt_writeBytes_other {s t : State} {addr a : Nat} {bs : List Byte}
    (hmem : t.mem = Memory.writeBytes s.mem addr bs) (ha : ∀ k, k < bs.length → a ≠ addr + k) :
    byteAt t a = byteAt s a := by
  have hout : ¬(addr ≤ a ∧ a < addr + bs.length) := by
    rintro ⟨hle, hlt⟩
    exact ha (a - addr) (by omega) (by omega)
  rw [byteAt, hmem, Memory.read_writeBytes, if_neg hout, byteAt]

/-- Settles O47: the step is one buffer write, barred as its operation says, and its memory is read back by address. -/
theorem hostBytesChangeExactlyTheWrittenBytes : Obligations.HostBytesChangeExactlyTheWrittenBytes := by
  intro s op addr bs rest hstuck hprog hop
  obtain ⟨barred, hstep, hbarred⟩ := step_bufferWrite hstuck hprog hop
  refine ⟨fun hin => ?_, fun ⟨k, hk, hpast⟩ => hstep.trans (writeBuffer_noSuchByte barred hk hpast)⟩
  have hwrite := hstep.trans (writeBuffer_inSpace barred hin)
  constructor
  · intro hbusy hbar
    rw [hwrite, if_pos (hbarred.mpr ⟨hbusy, hbar⟩)]
  · intro hfree
    have hnot : ¬barred = true := by
      intro hb
      obtain ⟨hbusy, hbar⟩ := hbarred.mp hb
      obtain ⟨hbytes, hread⟩ := hfree hbusy
      rcases hbar with hbar | ⟨k, hk, hbar⟩
      · exact hbytes hbar
      · exact absurd hbar (by simp [hread k hk])
    rw [if_neg hnot] at hwrite
    exact ⟨_, hwrite, rfl, fun _ _ => byteAt_writeBytes_written rfl, fun _ => byteAt_writeBytes_other rfl⟩

/-! ### Several blocks over one buffer space -/

/-- Storing a block's new state leaves every other block (R50). -/
theorem System.store_blocks_other {j k : Nat} (y : System) (t : State) (h : j ≠ k) :
    (y.store k t).blocks[j]? = y.blocks[j]? :=
  List.getElem?_set_ne h.symm

/-- Storing a block's new state puts it, without a buffer of its own, in that block's place. -/
theorem System.store_blocks_same {k : Nat} {y : System} {b : State} (hb : y.blocks[k]? = some b) (t : State) :
    (y.store k t).blocks[k]? = some { t with mem := [] } := by
  obtain ⟨hk, -⟩ := List.getElem?_eq_some_iff.mp hb
  exact List.getElem?_set_self hk

/-- Settles O60: a step of block `k` is its own step over the shared bytes, stored in its place, wherever the
write bar lets it happen. -/
theorem instancesDoNotObserveEachOther : Obligations.InstancesDoNotObserveEachOther := by
  intro k y z h
  obtain ⟨b, t, hb, ht, rfl⟩ := System.step_inv h
  refine ⟨fun j hj => y.store_blocks_other t hj, List.length_set, fun y' hmem hblock => ?_⟩
  have hb' : y'.blocks[k]? = some b := hblock.trans hb
  have hstep := System.step_of_step hb' (hmem ▸ ht)
  refine ⟨fun z' hz' => ?_, fun hother => ?_, ?_⟩
  · rw [hstep] at hz'
    split at hz'
    · cases hz'
    · cases hz'
      exact ⟨by rw [System.store_blocks_same hb', System.store_blocks_same hb], rfl⟩
  · obtain ⟨hbytes, hbyte⟩ := hother b hb
    have hbar : y'.writeBarred { b with mem := y'.mem } = false := y'.writeBarred_of_no_bytes hbytes hbyte
    rw [hbar, Bool.and_false] at hstep
    exact ⟨_, hstep⟩
  · rw [hstep]
    split
    · exact .inl rfl
    · exact .inr ⟨_, rfl⟩

end Sys2Proof.Machine

/-! SUPPORT. Proofs of the statements about command words: what the decoder accepts, what a `CMD` write does with the
word, and where a step or a driver command stops. -/

namespace Sys2Proof.Machine

/-! ### When a step answers -/

/-- The checks of a `CMD` write always answer (R174). -/
theorem issueGate_next (accept : State → State) (s : State) : ∃ t, issueGate accept s = .next t := by
  rcases stage_cases s with h | h | h
  · exact ⟨_, issueGate_busy h⟩
  · exact ⟨_, issueGate_fault h⟩
  · exact ⟨_, issueGate_issuable h⟩

/-- A `CMD` write answers, whatever its word (R66, R67). -/
theorem issueWord_next (w : Word) (s : State) : ∃ t, issueWord w s = .next t := by
  obtain ⟨accept, hgate⟩ := issueWord_gate w s
  rw [hgate]
  exact issueGate_next accept s

/-- The `S_EXEC` step answers: a single-step command is running and its operands are latched. -/
theorem execStep_next {s : State} (hs : s.Inv) (hst : s.stage = .sExec) : ∃ t, execStep s = .next t := by
  obtain ⟨i, hi⟩ := Option.isSome_iff_exists.mp (hs.running_iff.mpr hst)
  obtain ⟨hdriver, hlatched⟩ := hs.latched i hi
  have hsingle : ∀ j, Instr.isDriver j = true → i ≠ j := by
    rintro j hj rfl
    rw [hdriver] at hj
    cases hj
  rcases singleResult_latched (hsingle _ rfl) (hsingle _ rfl) (hsingle _ rfl) hlatched with ⟨v, hv⟩ | ⟨a, ha⟩
  · exact ⟨completeSingle v s, by simp [execStep, hi, hv]⟩
  · exact ⟨recordFault (.bufferOverread a) s, by simp [execStep, hi, ha]⟩

/-- A driver stage answers when its step on the values of `H`, `N` and `P` does: in such a stage they hold values. -/
theorem driverStep_next_of_inv {g : Word → Word → Nat → State → Out} {s : State} (hs : s.Inv)
    (hd : s.stage.driver = true) (hg : ∀ h n p, s.n = .known n → ∃ t, g h n p s = .next t) :
    ∃ t, driverStep g s = .next t := by
  obtain ⟨h, hh⟩ := Held.isKnown_iff.mp (hs.h_iff.trans hd)
  obtain ⟨n, hn⟩ := Held.isKnown_iff.mp (hs.n_iff.trans hd)
  obtain ⟨p, hp⟩ := Held.isKnown_iff.mp (hs.p_iff.trans hd)
  rw [driverStep_some hh hn hp]
  exact hg h n p hn

theorem blockStep_next (h n : Word) (p : Nat) (s : State) : ∃ t, blockStep h n p s = .next t := by
  unfold blockStep
  split <;> exact ⟨_, rfl⟩

theorem wordStep_next (h n : Word) (p : Nat) (s : State) : ∃ t, wordStep h n p s = .next t := by
  unfold wordStep
  split <;> exact ⟨_, rfl⟩

/-- A tail of fewer than 8 bytes has a row (R136). -/
theorem tailStep_next {n : Word} (hn : n.toNat < 8) (h : Word) (p : Nat) (s : State) :
    ∃ t, tailStep h n p s = .next t := by
  unfold tailStep
  rw [if_pos hn]
  split <;> exact ⟨_, rfl⟩

/-- Under the invariant the sequencer always answers (log entry 14). -/
theorem seqStep_next {s : State} (hs : s.Inv) : ∃ t, seqStep s = .next t := by
  unfold seqStep
  cases hst : s.stage with
  | idle | done | fault => exact ⟨s, rfl⟩
  | sExec => exact execStep_next hs hst
  | sBlock => exact driverStep_next_of_inv hs (hst ▸ rfl) fun h n p _ => blockStep_next h n p s
  | sWord => exact driverStep_next_of_inv hs (hst ▸ rfl) fun h n p _ => wordStep_next h n p s
  | sTail => exact driverStep_next_of_inv hs (hst ▸ rfl) fun h n p hn => tailStep_next (hs.n_tail hst n hn) h p s
  | sFinal => exact driverStep_next_of_inv hs (hst ▸ rfl) fun _ _ _ _ => ⟨_, rfl⟩

/-- A poll that finds `BUSY = 1` puts `WAIT` back on the program and lets the sequencer step (R69, log entry 8). -/
theorem hostWait_busy {s : State} (h : busy s = true) :
    hostWait s = seqStep { s with program := .wait :: s.program } :=
  if_pos h

/-- A poll that finds `BUSY = 0` is a host read of `STATUS`. -/
theorem hostWait_not_busy {s : State} (h : busy s = false) : hostWait s = .next (hostRead .status s) :=
  if_neg (Bool.eq_false_iff.mp h)

/-- Under the invariant every host operation answers but a buffer write and a change of `R_READABLE` (log entries 5,
10). -/
theorem hostStep_next {op : HostOp} {s : State} (hs : s.Inv) (hbytes : ∀ a bs, op ≠ .bytes a bs)
    (hbyte : ∀ a b, op ≠ .byte a b) (hreadable : ∀ gs, op ≠ .readable gs) : ∃ t, hostStep op s = .next t := by
  cases op with
  | wr r v =>
    cases r with
    | cmd => exact issueWord_next v s
    | status | operand | y | reserved => exact ⟨_, rfl⟩
  | rd | reset => exact ⟨_, rfl⟩
  | wait =>
    cases hbusy : busy s with
    | true =>
      rw [hostStep, hostWait_busy hbusy]
      exact seqStep_next (hs.withProgram _)
    | false => exact ⟨_, hostWait_not_busy hbusy⟩
  | bytes a bs => exact absurd rfl (hbytes a bs)
  | byte a b => exact absurd rfl (hbyte a b)
  | readable gs => exact absurd rfl (hreadable gs)
  | seq => exact seqStep_next hs
  | rdIfDone =>
    simp only [hostStep]
    split <;> exact ⟨_, rfl⟩

/-- Settles O59: a step is a stuck block's, the sequencer's or a host operation's, and under the invariant each of them
answers but for the operations set aside. -/
theorem stepsStopOnlyWhereTheRulesSay : Obligations.StepsStopOnlyWhereTheRulesSay := by
  intro s hs hbytes hbyte hreadable
  cases hstuck : stuck s with
  | true => exact ⟨s, step_stuck hstuck⟩
  | false =>
    cases hprog : s.program with
    | nil =>
      rw [step_sequencer hstuck hprog]
      exact seqStep_next hs
    | cons op rest =>
      rw [step_host hstuck hprog]
      exact hostStep_next (hs.withProgram rest) (fun a bs hop => hbytes a bs rest (hop ▸ hprog))
        (fun a b hop => hbyte a b rest (hop ▸ hprog)) (fun gs hop => hreadable gs rest (hop ▸ hprog))

/-! ### The decoder -/

/-- Each row of the opcode map stands for one command, and gives the opcode of that command's own rule (R64). -/
theorem lookup_opcodeMap_iff (op : BitVec 8) (i : Instr) : opcodeMap.lookup op = some i ↔ op = opcode i := by
  constructor
  · intro h
    obtain ⟨l, r, hmap, -⟩ := List.lookup_eq_some_iff.mp h
    have hrow : (op, i) ∈ opcodeMap := by simp [hmap]
    have hrows : ∀ row ∈ opcodeMap, row.1 = opcode row.2 := by decide
    exact hrows _ hrow
  · rintro rfl
    cases i <;> rfl

/-- The opcodes outside R65's reserved ranges are the ones R64's map lists. -/
theorem opcodeAssigned_eq_isSome_lookup : ∀ op, opcodeAssigned op = (opcodeMap.lookup op).isSome := by
  decide

/-- A word with zero reserved bits is its opcode, zero-extended. -/
theorem eq_zext64_fieldOp {w : Word} (h : fieldRsvd w = 0) : w = zext64 (fieldOp w) := by
  have hhigh : w.toNat / 2 ^ 8 % 2 ^ 56 = 0 := by
    simpa [fieldRsvd, BitVec.extractLsb'_toNat, Nat.shiftRight_eq_div_pow] using congrArg BitVec.toNat h
  apply BitVec.eq_of_toNat_eq
  rw [BitVec.toNat_setWidth, fieldOp, BitVec.extractLsb'_toNat]
  omega

/-- A command's word has its opcode in `OP` and zero in `RSVD` (R61, R69). -/
theorem fields_encode (i : Instr) : fieldRsvd (encode i) = 0 ∧ fieldOp (encode i) = opcode i := by
  cases i <;> decide

/-- Decoding gives a command back from its word (R64, R69). -/
@[simp] theorem decode_encode (i : Instr) : decode (encode i) = .ok i := by
  obtain ⟨hrsvd, hop⟩ := fields_encode i
  simp [decode, hrsvd, hop, (lookup_opcodeMap_iff _ i).mpr rfl]

/-- Every word is rejected for its reserved bits, or, these being zero, for its opcode, or is the word of a command
(R65, R66). -/
theorem decode_cases (w : Word) :
    (fieldRsvd w ≠ 0 ∧ decode w = .error .reservedBits) ∨
    (fieldRsvd w = 0 ∧ opcodeAssigned (fieldOp w) = false ∧ decode w = .error .reservedOpcode) ∨
    (fieldRsvd w = 0 ∧ opcodeAssigned (fieldOp w) = true ∧ ∃ i, w = encode i) := by
  rw [opcodeAssigned_eq_isSome_lookup]
  by_cases hrsvd : fieldRsvd w = 0
  · cases hop : opcodeMap.lookup (fieldOp w) with
    | none => exact .inr (.inl ⟨hrsvd, rfl, by simp [decode, hrsvd, hop]⟩)
    | some i =>
      refine .inr (.inr ⟨hrsvd, rfl, i, ?_⟩)
      rw [encode, ← (lookup_opcodeMap_iff _ i).mp hop]
      exact eq_zext64_fieldOp hrsvd
  · exact .inl ⟨hrsvd, if_pos hrsvd⟩

theorem commandWordWellFormed_iff (w : Word) :
    commandWordWellFormed w = true ↔ fieldRsvd w = 0 ∧ opcodeAssigned (fieldOp w) = true := by
  rw [commandWordWellFormed, Bool.and_eq_true, beq_iff_eq]
  rfl

/-- An illegal word is rejected (R65, R66). -/
theorem decode_illegal {w : Word} (h : commandWordWellFormed w = false) : ∃ e, decode w = .error e := by
  rcases decode_cases w with ⟨_, hdec⟩ | ⟨_, _, hdec⟩ | ⟨hrsvd, hop, _⟩
  · exact ⟨_, hdec⟩
  · exact ⟨_, hdec⟩
  · exact absurd ((commandWordWellFormed_iff w).mpr ⟨hrsvd, hop⟩) (Bool.eq_false_iff.mp h)

/-- The reserved opcodes as ranges of the whole word, whose other bits are zero (R65). -/
theorem opcodeAssigned_fieldOp_eq_false_iff {w : Word} (h : fieldRsvd w = 0) : opcodeAssigned (fieldOp w) = false ↔
    w.toNat = 0x00 ∨ (0x06 ≤ w.toNat ∧ w.toNat ≤ 0x0F) ∨ (0x14 ≤ w.toNat ∧ w.toNat ≤ 0x1F) ∨ 0x23 ≤ w.toNat := by
  have hw : w.toNat = (fieldOp w).toNat :=
    (congrArg BitVec.toNat (eq_zext64_fieldOp h)).trans (BitVec.toNat_setWidth_of_le (by decide))
  have hlt : (fieldOp w).toNat < 256 := (fieldOp w).isLt
  rw [hw]
  simp only [opcodeAssigned, Bool.not_eq_false', Bool.or_eq_true, Bool.and_eq_true, beq_iff_eq, decide_eq_true_eq]
  omega

/-- Settles O3: each word falls under one case of the decoder, and the cases exclude each other. -/
theorem decoderAcceptsExactlyTheLegalWords : Obligations.DecoderAcceptsExactlyTheLegalWords := by
  intro w
  show ((∃ i, decode w = .ok i) ↔ commandWordWellFormed w = true) ∧ (∀ i, decode w = .ok i → w = encode i) ∧
    (decode w = .error .reservedBits ↔ fieldRsvd w ≠ 0) ∧
    (decode w = .error .reservedOpcode ↔ fieldRsvd w = 0 ∧ _)
  rw [commandWordWellFormed_iff]
  rcases decode_cases w with ⟨hrsvd, hdec⟩ | ⟨hrsvd, hop, hdec⟩ | ⟨hrsvd, hop, i, rfl⟩
  · exact ⟨iff_of_false (by simp [hdec]) (mt And.left hrsvd), by simp [hdec], iff_of_true hdec hrsvd,
      iff_of_false (by simp [hdec]) (mt And.left hrsvd)⟩
  · simp [hdec, hrsvd, hop, ← opcodeAssigned_fieldOp_eq_false_iff hrsvd]
  · simp [hrsvd, hop, ← opcodeAssigned_fieldOp_eq_false_iff hrsvd]

/-- A command's word placed as a 64-bit table word is the word itself. -/
theorem ofNat_toNat_mod (w : Word) : BitVec.ofNat 64 (w.toNat % 2 ^ 64) = w := by
  rw [Nat.mod_eq_of_lt w.isLt, BitVec.ofNat_toNat, BitVec.setWidth_eq]

/-- Settles O2: a table word of 64 bits is a `CMD` word. -/
theorem decodeInvertsEncode : Obligations.DecodeInvertsEncode := by
  intro i
  refine ⟨decode_encode i, ?_⟩
  rw [decodeTableWord, ofNat_toNat_mod, decode_encode]

/-- Settles O1: twelve of the words are the commands' own, and the decoder says of each of the others why it is none. -/
theorem opcodeMapWordsDecode : Obligations.OpcodeMapWordsDecode :=
  ⟨decode_encode .rotl, decode_encode .rd8, decode_encode .rd16, decode_encode .rd32, decode_encode .rd64,
    decode_encode .mix, decode_encode .mixs, decode_encode .mixb, decode_encode .premix, decode_encode .hashi,
    decode_encode .hash, decode_encode .hashs, rfl, rfl, rfl, rfl⟩

/-! ### What a `CMD` write does -/

/-- A legal word issues its command (R67). -/
theorem issueWord_ok {w : Word} {i : Instr} (h : decode w = .ok i) (s : State) : issueWord w s = exec i s := by
  rw [issueWord, h]

/-- In `IDLE` or `DONE` an illegal word raises `ILLEGAL_OP` (R65, R67). -/
theorem issueWord_illegal {w : Word} {s : State} (h : commandWordWellFormed w = false) (hi : s.Issuable) :
    issueWord w s = .next (raiseFault .illegalOp s) := by
  obtain ⟨e, hdec⟩ := decode_illegal h
  rw [issueWord, hdec]
  exact issueGate_issuable hi

/-- In `FAULT` no word has an effect (R175). -/
theorem issueWord_fault {s : State} (h : s.stage = .fault) (w : Word) : issueWord w s = .next s := by
  obtain ⟨accept, hgate⟩ := issueWord_gate w s
  rw [hgate, issueGate_fault h]

/-- The step that takes a `CMD` write off the host's program (R67). -/
theorem step_issueWord {s : State} {w : Word} {rest : List HostOp} (h : stuck s = false)
    (hp : s.program = .wr .cmd w :: rest) : step s = issueWord w { s with program := rest } :=
  step_host h hp

/-- Settles O5: the step is the `CMD` write's, and a legal word issues its command. -/
theorem stepIssuesTheDecodedCommand : Obligations.StepIssuesTheDecodedCommand := by
  intro s w i rest hstuck hprog hdec
  rw [step_issueWord hstuck hprog, issueWord_ok hdec]

/-- Settles O7: an illegal word passes the first checks in `IDLE` and `DONE`, and the fault is taken. -/
theorem illegalWordRaisesIllegalOp : Obligations.IllegalWordRaisesIllegalOp := by
  intro s w rest hstuck hi hprog hillegal
  exact ⟨_, (step_issueWord hstuck hprog).trans (issueWord_illegal hillegal hi), rfl⟩

/-- Settles O9: the first checks of a `CMD` write end it in `FAULT`. -/
theorem commandWriteInFaultHasNoEffect : Obligations.CommandWriteInFaultHasNoEffect := by
  intro s w rest hstuck hfault hprog
  rw [step_issueWord hstuck hprog]
  apply issueWord_fault
  exact hfault

/-! ### The placed command word -/

/-- Supplying operands writes no register that holds a value (R192, log entry 2). -/
theorem supplyOperands_known {rs : List OpReg} {f : OperandFile} {r : OpReg} {v : Word} (h : f.get r = .known v) :
    (supplyOperands rs f).get r = .known v := by
  induction rs generalizing f with
  | nil => exact h
  | cons q rs ih =>
    unfold supplyOperands
    split
    · exact ih h
    · rename_i bits hq
      have hrq : r ≠ q := by
        rintro rfl
        rw [h] at hq
        cases hq
      exact ih ((OperandFile.get_set_other f bits hrq).trans h)

/-- Supplying operands leaves every register holding a value that the command reads. -/
theorem supplyOperands_isKnown {rs : List OpReg} {r : OpReg} (h : r ∈ rs) (f : OperandFile) :
    ((supplyOperands rs f).get r).isKnown = true := by
  induction rs generalizing f with
  | nil => cases h
  | cons q rs ih =>
    unfold supplyOperands
    rcases List.mem_cons.mp h with rfl | hr
    · split
      · rename_i v hv
        exact Held.isKnown_iff.mpr ⟨v, supplyOperands_known hv⟩
      · rename_i bits _
        exact Held.isKnown_iff.mpr ⟨bits, supplyOperands_known (OperandFile.get_set_same f r bits)⟩
    · split <;> exact ih hr _

/-- Supplying operands leaves alone every register that the command does not read. -/
theorem supplyOperands_other {rs : List OpReg} {r : OpReg} (h : r ∉ rs) (f : OperandFile) :
    (supplyOperands rs f).get r = f.get r := by
  induction rs generalizing f with
  | nil => rfl
  | cons q rs ih =>
    obtain ⟨hrq, hrs⟩ := not_or.mp (mt List.mem_cons.mpr h)
    unfold supplyOperands
    split
    · exact ih hrs f
    · exact (ih hrs _).trans (OperandFile.get_set_other f _ hrq)

/-- A placed command word is the next `CMD` write, its operands supplied (R60, R192). -/
theorem withFetchWord_encode (s : State) (i : Instr) : s.withFetchWord 64 (encode i).toNat =
    { s with ops := supplyOperands (operandsRead i) s.ops, program := .wr .cmd (encode i) :: s.program } := by
  rw [State.withFetchWord, ofNat_toNat_mod, aboutToIssue, decode_encode]

/-- Settles O6: the placed word is the next operation, and its issue sees the supplied operands. -/
theorem fetchWordIsIssuedNext : Obligations.FetchWordIsIssuedNext := by
  intro s i hstuck
  refine ⟨supplyOperands (operandsRead i) s.ops, ?_, fun r hr => supplyOperands_isKnown hr s.ops,
    fun r v hv => supplyOperands_known hv, fun r hr => supplyOperands_other hr s.ops⟩
  rw [withFetchWord_encode]
  refine (step_issueWord (rest := s.program) ?_ rfl).trans (issueWord_ok (decode_encode i) _)
  exact hstuck

/-! ### An issue without an operand -/

/-- Latching reads one register after another, as the start of a driver command does. -/
theorem latchOperands_cons (s : State) (r : OpReg) (rs : List OpReg) (f : OperandFile) :
    latchOperands s (r :: rs) f = need s r >>= fun v => latchOperands s rs (f.set r v) := by
  rw [latchOperands, need]
  cases s.ops.get r <;> rfl

/-- Two readings of operands that begin with one register stop at the same register without a value, if what follows
does. -/
theorem need_bind_error {α β : Type} {s : State} {r q : OpReg} {k : Word → Except OpReg α} {k' : Word → Except OpReg β}
    (h : (need s r >>= k) = .error q) (hk : ∀ v, k v = .error q → k' v = .error q) :
    (need s r >>= k') = .error q := by
  cases hn : need s r with
  | ok v =>
    rw [hn] at h
    exact hk v h
  | error e =>
    rw [hn] at h
    cases h
    rfl

/-- Every command stops at the register at which latching the registers it reads would. -/
theorem commandStart_error {i : Instr} {s : State} {r : OpReg}
    (h : latchOperands s (operandsRead i) s.latches = .error r) : commandStart i s = .error r := by
  have hsingle : (latchOperands s (operandsRead i) s.latches).map (startSingle i · s) = .error r := by rw [h]; rfl
  cases i
  case hash =>
    simp only [operandsRead, latchOperands_cons] at h
    exact need_bind_error h fun _ h => need_bind_error h nofun
  case hashi | hashs =>
    simp only [operandsRead, latchOperands_cons] at h
    exact need_bind_error h fun _ h => need_bind_error h fun _ h => need_bind_error h nofun
  all_goals exact hsingle

/-- A recorded `UnwrittenOperand` or `BufferOverread` leaves the block as it is for ever (R173). -/
theorem step_recordFault {f : ModelFault} (hf : f.sticks = true) (s : State) :
    step (recordFault f s) = .next (recordFault f s) := by
  apply step_stuck
  rw [stuck_recordFault, hf, Bool.or_true]

/-- Settles O10: the command stops at its first register without a value, as latching does. -/
theorem unwrittenOperandIsRecordedAndSticks : Obligations.UnwrittenOperandIsRecordedAndSticks := by
  intro s i before after r hi hread hbefore hr
  have hlatch : latchOperands s (operandsRead i) s.latches = .error r := by
    rw [hread]
    exact latchOperands_error s.latches hbefore hr
  have hexec : exec i s = .next (recordFault (.unwrittenOperand r) s) := by
    rw [exec_eq_gate, issueGate_issuable hi, commandStart_error hlatch, startOrRecord]
  exact ⟨_, hexec, rfl, mem_flogAdd s.flog _, step_recordFault rfl s⟩

/-! ### Waiting -/

/-- Settles O48: a poll that finds `BUSY = 1` leaves the program as it was before it. -/
theorem waitPollsUntilNotBusy : Obligations.WaitPollsUntilNotBusy := by
  intro s rest hstuck hprog
  have hstep : step s = hostWait { s with program := rest } := step_host hstuck hprog
  constructor
  · intro hbusy
    calc step s
      _ = seqStep { s with program := .wait :: rest } := hstep.trans (hostWait_busy hbusy)
      _ = seqStep s := by rw [← hprog]
  · intro hbusy
    exact hstep.trans (hostWait_not_busy hbusy)

/-! ### A driver command that meets an unreadable byte -/

/-- The start of a driver command whose operands hold values (R130, R162, R163). -/
theorem exec_driver {i : Instr} {s : State} {base len opc : Word} (hd : Instr.isDriver i = true) (hi : s.Issuable)
    (ha : s.ops.get .opa = .known base) (hb : s.ops.get .opb = .known len)
    (hc : .opc ∈ operandsRead i → s.ops.get .opc = .known opc) :
    exec i s = .next (startDriver base len (driverSeed i opc) s) := by
  have hstart : commandStart i s = .ok (startDriver base len (driverSeed i opc) s) := by
    cases i
    case hash =>
      rw [commandStart, need_some ha, need_some hb]
      rfl
    case hashi | hashs =>
      rw [commandStart, need_some ha, need_some hb, need_some (hc (by simp [operandsRead]))]
      rfl
    all_goals cases hd
  rw [exec_eq_gate, issueGate_issuable hi, hstart, startOrRecord]

/-- The state of a driver command in stage `g`, issued in `s`: `Y`, `STAGE`, `H`, `N` and `P` are all that the command
has changed. -/
def driving (s : State) (g : Stage) (h n : Word) (p : Nat) : State :=
  { s with y := noY, stage := g, h := .known h, n := .known n, p := .known p }

/-- The lowest unreadable byte of a read of `w + n` bytes lies in its first `w` bytes, or these may be read and it
lies in the other `n`. -/
theorem firstUnreadable_add {s : State} {p w n a : Nat} (h : firstUnreadable s p (w + n) = some a) :
    firstUnreadable s p w = some a ∨ (firstUnreadable s p w = none ∧ firstUnreadable s (p + w) n = some a) := by
  simp only [firstUnreadable_eq_some, firstUnreadable_eq_none] at h ⊢
  obtain ⟨hle, hlt, hbad, hgood⟩ := h
  by_cases hw : a < p + w
  · exact .inl ⟨hle, hw, hbad, hgood⟩
  · exact .inr ⟨fun k hk => hgood _ (by omega) (by omega), by omega, by omega, hbad,
      fun z hz => hgood z (by omega)⟩

section
variable {s : State} {a : Nat}

/-- A driver command's read is admitted as it was when the command was issued. -/
theorem checkedRead_driving (g : Stage) (h n : Word) (p q w : Nat) (v : Word) :
    checkedRead (driving s g h n p) q w v = checkedRead s q w v := by
  unfold checkedRead
  rw [firstUnreadable_congr (s := s) (t := driving s g h n p) rfl rfl]

/-- Within `k` steps the driver command that runs in `v`, issued in `s`, records an overread of `a`. -/
def OverreadsWithin (s : State) (a k : Nat) (v : State) : Prop :=
  ∃ m g h n p, m < k ∧ run m v = .next (driving s g h n p) ∧ g.driver = true ∧
    step (driving s g h n p) = .next (recordFault (.bufferOverread a) (driving s g h n p))

theorem OverreadsWithin.later {k : Nat} {v u : State} (hstep : step v = .next u) (hu : OverreadsWithin s a k u) :
    OverreadsWithin s a (k + 1) v := by
  obtain ⟨m, g, h, n, p, hm, hrun, hg, hrec⟩ := hu
  exact ⟨m + 1, g, h, n, p, Nat.succ_lt_succ hm, (run_step hstep).trans hrun, hg, hrec⟩

/-- A step that reads the first `w` of `w + m` bytes records the overread, or moves on with the other `m` bytes to
read. -/
theorem OverreadsWithin.read {g : Stage} {h n x : Word} {p w m k : Nat} {next : Word → State} (hg : g.driver = true)
    (hstep : step (driving s g h n p) = .next (readOrRecord (driving s g h n p) next
      (checkedRead (driving s g h n p) p w x)))
    (ha : firstUnreadable s p (w + m) = some a)
    (hnext : firstUnreadable s (p + w) m = some a → OverreadsWithin s a k (next x)) :
    OverreadsWithin s a (k + 1) (driving s g h n p) := by
  rw [checkedRead_driving, checkedRead] at hstep
  rcases firstUnreadable_add ha with hw | ⟨hw, hm⟩
  · rw [hw] at hstep
    exact ⟨0, g, h, n, p, Nat.succ_pos k, rfl, hg, hstep⟩
  · rw [hw] at hstep
    exact .later hstep (hnext hm)

variable (hstuck : stuck s = false) (hprog : s.program = [])
include hstuck hprog

/-- With no host operation left, a running driver command takes the sequencer's step. -/
theorem step_driving (g : Stage) (h n : Word) (p : Nat) : step (driving s g h n p) = seqStep (driving s g h n p) :=
  step_sequencer hstuck hprog

/-- `S_TAIL` reads all the bytes that are left, so its step records the overread (R136). -/
theorem overreadsWithin_tail {h n : Word} {p : Nat} (hn : n.toNat < 8) (ha : firstUnreadable s p n.toNat = some a) :
    OverreadsWithin s a 1 (driving s .sTail h n p) := by
  have hpos : n.toNat ≠ 0 := by
    intro h0
    rw [h0] at ha
    cases ha
  have hstep : step (driving s .sTail h n p) = tailStep h n p (driving s .sTail h n p) := step_driving hstuck hprog ..
  rw [tailStep, if_neg hpos, if_pos hn] at hstep
  exact .read (m := 0) rfl hstep ha nofun

/-- `S_WORD` meets the byte in one of its words, or leaves it to `S_TAIL` (R135). -/
theorem overreadsWithin_words {words : Nat} {h n : Word} {p : Nat} (hwords : n.toNat / 8 = words)
    (ha : firstUnreadable s p n.toNat = some a) : OverreadsWithin s a (words + 2) (driving s .sWord h n p) := by
  have hstep {h n p} : step (driving s .sWord h n p) = wordStep h n p (driving s .sWord h n p) :=
    step_driving hstuck hprog ..
  induction words generalizing h n p with
  | zero =>
    have hn : n.toNat < 8 := by omega
    exact .later (hstep.trans (if_neg (by omega))) (overreadsWithin_tail hstuck hprog (h := h) hn ha)
  | succ words ih =>
    have hge : 8 ≤ n.toNat := by omega
    have hn : n.toNat = 8 + (n - 8).toNat := by bv_omega
    rw [hn] at ha
    exact .read rfl (hstep.trans (if_pos hge)) ha fun ha' => ih (by omega) ha'

/-- `S_BLOCK` meets the byte in one of its blocks, or leaves it to `S_WORD` (R134). -/
theorem overreadsWithin_blocks {blocks : Nat} {h n : Word} {p : Nat} (hblocks : n.toNat / 64 = blocks)
    (ha : firstUnreadable s p n.toNat = some a) :
    OverreadsWithin s a (blocks + (n.toNat % 64 / 8 + 3)) (driving s .sBlock h n p) := by
  have hstep {h n p} : step (driving s .sBlock h n p) = blockStep h n p (driving s .sBlock h n p) :=
    step_driving hstuck hprog ..
  induction blocks generalizing h n p with
  | zero =>
    have hn : n.toNat < 64 := by omega
    rw [Nat.zero_add, Nat.mod_eq_of_lt hn]
    exact .later (hstep.trans (if_neg (by omega))) (overreadsWithin_words hstuck hprog (h := h) rfl ha)
  | succ blocks ih =>
    have hge : 64 ≤ n.toNat := by omega
    have hn : n.toNat = 64 + (n - 64).toNat := by bv_omega
    rw [hn, Nat.add_mod_left, Nat.add_right_comm]
    rw [hn] at ha
    exact .read rfl (hstep.trans (if_pos hge)) ha fun ha' => ih (by omega) ha'

end

/-- Settles O27: the driver runs towards the lowest unreadable byte, and the stage that reads it records the
overread. -/
theorem driverOverreadStopsAtTheLowestByte : Obligations.DriverOverreadStopsAtTheLowestByte := by
  intro i s base len k hcmd hi hstuck hprog ha hb hknown hk hread hbad
  have hdrivers : ∀ j ∈ [Instr.hashi, .hash, .hashs], Instr.isDriver j = true := by decide
  obtain ⟨opc, hopc⟩ : ∃ opc, .opc ∈ operandsRead i → s.ops.get .opc = .known opc := by
    by_cases hc : .opc ∈ operandsRead i
    · obtain ⟨opc, hopc⟩ := Held.isKnown_iff.mp (hknown _ hc)
      exact ⟨opc, fun _ => hopc⟩
    · exact ⟨0, fun hc' => absurd hc' hc⟩
  have hfirst : firstUnreadable s base.toNat len.toNat = some (base.toNat + k) := by
    rw [firstUnreadable_eq_some]
    refine ⟨by omega, by omega, hbad, fun z hz hzk => ?_⟩
    obtain ⟨j, rfl⟩ := Nat.exists_eq_add_of_le hz
    exact hread j (by omega)
  obtain ⟨m, g, h, n, p, hm, hrun, hg, hstep⟩ :=
    overreadsWithin_blocks hstuck hprog (h := len ^^^ driverSeed i opc) rfl hfirst
  have hsteps : m < driverSteps len.toNat := by
    unfold driverSteps
    omega
  exact ⟨_, _, _, m, exec_driver (hdrivers i hcmd) hi ha hb hopc, hsteps, hrun, hstep, rfl, rfl, hstuck, rfl,
    mem_flogAdd s.flog _, Stage.busy_of_driver hg, rfl, step_recordFault rfl _⟩

end Sys2Proof.Machine

/-! SUPPORT. Proofs of the statements about the rotate: the laws of `rotl64` and the command `ROTL`. -/

namespace Sys2Proof.Machine

/-! ### The rotate, bit by bit -/

/-- Bit `i` of a rotated word is the bit `c mod 64` places below it, wrapping around at bit 0 (R80). -/
theorem getLsbD_rotl64 (n : Word) (c : Nat) {i : Nat} (hi : i < 64) :
    (rotl64 n c).getLsbD i = n.getLsbD ((i + 64 - c % 64) % 64) := by
  rw [rotl64_eq_rotateLeft, BitVec.getLsbD_rotateLeft]
  by_cases hwrap : i < c % 64
  · have hfrom : (i + 64 - c % 64) % 64 = 64 - c % 64 + i := by omega
    simp [hwrap, hfrom]
  · have hfrom : (i + 64 - c % 64) % 64 = i - c % 64 := by omega
    simp [hwrap, hfrom, hi]

/-- Settles O31: below the count a bit comes from the word's upper end, and elsewhere from `c mod 64` places lower. -/
theorem rotlMovesEveryBit : Obligations.RotlMovesEveryBit :=
  fun n c _ hi => getLsbD_rotl64 n c hi

/-! ### The laws of the rotate -/

theorem rotl64_mod (n : Word) (c : Nat) : rotl64 n (c % 64) = rotl64 n c := by
  simp only [rotl64_eq_rotateLeft, BitVec.rotateLeft_mod_eq_rotateLeft]

theorem rotl64_zero (n : Word) : rotl64 n 0 = n := rfl

/-- A whole number of turns moves no bit. -/
theorem rotl64_of_mod_eq_zero (n : Word) {c : Nat} (h : c % 64 = 0) : rotl64 n c = n := by
  rw [← rotl64_mod, h, rotl64_zero]

theorem rotl64_rotl64 (n : Word) (a b : Nat) : rotl64 (rotl64 n a) b = rotl64 n (a + b) := by
  apply BitVec.eq_of_getLsbD_eq
  intro i hi
  have hfrom : ((i + 64 - b % 64) % 64 + 64 - a % 64) % 64 = (i + 64 - (a + b) % 64) % 64 := by omega
  rw [getLsbD_rotl64 _ _ hi, getLsbD_rotl64 _ _ (Nat.mod_lt _ (by decide)), getLsbD_rotl64 _ _ hi, hfrom]

/-- Turning back after turning, by what is left of a whole turn. -/
theorem rotl64_inverse_left (n : Word) (a : Nat) : rotl64 (rotl64 n a) (64 - a % 64) = n :=
  (rotl64_rotl64 n _ _).trans (rotl64_of_mod_eq_zero n (by omega))

/-- Turning back before turning, by what is left of a whole turn. -/
theorem rotl64_inverse_right (n : Word) (a : Nat) : rotl64 (rotl64 n (64 - a % 64)) a = n :=
  (rotl64_rotl64 n _ _).trans (rotl64_of_mod_eq_zero n (by omega))

theorem rotl64_bijective (a : Nat) : Function.Bijective (fun n => rotl64 n a) :=
  Function.bijective_iff_has_inverse.mpr ⟨_, (rotl64_inverse_left · a), (rotl64_inverse_right · a)⟩

/-- The list of the bits of a rotated word is the rotated list of the word's bits. -/
theorem bits_rotl64 (n : Word) (c : Nat) :
    (List.range 64).map (rotl64 n c).getLsbD = ((List.range 64).map n.getLsbD).rotate (64 - c % 64) := by
  refine List.ext_getElem (by simp) fun i hi _ => ?_
  have hi : i < 64 := by simpa using hi
  have hfrom : i + 64 - c % 64 = i + (64 - c % 64) := by omega
  simp [List.getElem_rotate, getLsbD_rotl64 n c hi, hfrom]

/-- A rotate keeps the number of set bits. -/
theorem countP_getLsbD_rotl64 (n : Word) (c : Nat) :
    (List.range 64).countP (rotl64 n c).getLsbD = (List.range 64).countP n.getLsbD :=
  calc (List.range 64).countP (rotl64 n c).getLsbD
    _ = ((List.range 64).map (rotl64 n c).getLsbD).countP id := by rw [List.countP_map, Function.id_comp]
    _ = ((List.range 64).map n.getLsbD).countP id := by rw [bits_rotl64, (List.rotate_perm _ _).countP_eq]
    _ = (List.range 64).countP n.getLsbD := by rw [List.countP_map, Function.id_comp]

/-- A rotate distributes over every operation that works bit by bit. -/
theorem rotl64_bitwise {op : Word → Word → Word} {f : Bool → Bool → Bool}
    (h : ∀ x y i, (op x y).getLsbD i = f (x.getLsbD i) (y.getLsbD i)) (x y : Word) (a : Nat) :
    rotl64 (op x y) a = op (rotl64 x a) (rotl64 y a) := by
  apply BitVec.eq_of_getLsbD_eq
  intro i hi
  simp only [h, getLsbD_rotl64 _ _ hi]

theorem rotl64_xor (x y : Word) (a : Nat) : rotl64 (x ^^^ y) a = rotl64 x a ^^^ rotl64 y a :=
  rotl64_bitwise (fun _ _ _ => BitVec.getLsbD_xor) x y a

theorem rotl64_or (x y : Word) (a : Nat) : rotl64 (x ||| y) a = rotl64 x a ||| rotl64 y a :=
  rotl64_bitwise (fun _ _ _ => BitVec.getLsbD_or) x y a

theorem rotl64_and (x y : Word) (a : Nat) : rotl64 (x &&& y) a = rotl64 x a &&& rotl64 y a :=
  rotl64_bitwise (fun _ _ _ => BitVec.getLsbD_and) x y a

/-- Settles O32: the laws of R82, each by its own lemma. -/
theorem rotlLawsHold : Obligations.RotlLawsHold :=
  ⟨fun n a => (rotl64_mod n a).symm, rotl64_rotl64, rotl64_zero,
    fun a => ⟨rotl64_bijective a, fun n => ⟨rotl64_inverse_left n a, rotl64_inverse_right n a⟩⟩,
    countP_getLsbD_rotl64, fun x y a => ⟨rotl64_xor x y a, rotl64_or x y a, rotl64_and x y a⟩⟩

/-! ### The single-step commands -/

/-- Latching copies a register that holds a value and goes on to the next one. -/
theorem latchOperands_cons_known {s : State} {r : OpReg} {v : Word} (h : s.ops.get r = .known v) (rs : List OpReg)
    (f : OperandFile) : latchOperands s (r :: rs) f = latchOperands s rs (f.set r v) := by
  rw [latchOperands_cons, need_some h]
  rfl

/-- The start of a single-step command whose operands are latched (R67). -/
theorem exec_single {i : Instr} {s : State} {f : OperandFile} (hd : Instr.isDriver i = false) (hi : s.Issuable)
    (hf : latchOperands s (operandsRead i) s.latches = .ok f) : exec i s = .next (startSingle i f s) := by
  have hstart : commandStart i s = (latchOperands s (operandsRead i) s.latches).map (startSingle i · s) := by
    cases i
    case hashi | hash | hashs => cases hd
    all_goals rfl
  rw [exec_eq_gate, issueGate_issuable hi, hstart, hf]
  rfl

/-- The `S_EXEC` step of a command that has a result (R67). -/
theorem seqStep_completes {i : Instr} {s : State} {v : Word} (hstage : s.stage = .sExec) (hrun : s.running = some i)
    (hv : singleResult i s = .ok v) : seqStep s = .next (completeSingle v s) := by
  simp only [seqStep, hstage, execStep, hrun, hv]

/-- The result of `ROTL`: the count it takes from `OPB` counts mod 64 (R63, R81). -/
theorem singleResult_rotl {s : State} {n c : Word} (ha : s.latches.get .opa = .known n)
    (hb : s.latches.get .opb = .known c) : singleResult .rotl s = .ok (rotl64 n c.toNat) := by
  rw [singleResult, resultRotl, latched_some ha, latched_some hb, ← rotl64_mod n c.toNat, ← rotateCount_eq]
  rfl

/-- Settles O11: both operands are latched, and the `S_EXEC` step finds the result in the latches. -/
theorem rotlRotatesOpaByOpb : Obligations.RotlRotatesOpaByOpb := by
  intro s n c hi ha hb
  have hlatch : latchOperands s (operandsRead .rotl) s.latches = .ok ((s.latches.set .opa n).set .opb c) := by
    rw [operandsRead, latchOperands_cons_known (r := .opa) ha, latchOperands_cons_known (r := .opb) hb,
      latchOperands]
  exact ⟨_, exec_single rfl hi hlatch, rfl, seqStep_completes rfl rfl (singleResult_rotl rfl rfl)⟩

end Sys2Proof.Machine

/-! SUPPORT. Proofs of the statements about the readers `RD8`, `RD16`, `RD32` and `RD64`: what they issue, and what their
`S_EXEC` step reads or records. -/

namespace Sys2Proof.Machine

/-! ### What the four readers share -/

/-- The readers and their widths in bytes (R93 to R96). -/
def readerWidths : List (Instr × Nat) := [(.rd8, 1), (.rd16, 2), (.rd32, 4), (.rd64, 8)]

/-- A reader is a single-step command on `OPA` and `OPB` whose result is the read of its width (R92). -/
theorem reader_meaning {i : Instr} {width : Nat} (h : (i, width) ∈ readerWidths) :
    Instr.isDriver i = false ∧ operandsRead i = [.opa, .opb] ∧ ∀ s, singleResult i s = readerResult width s := by
  simp only [readerWidths, List.mem_cons, Prod.mk.injEq, List.not_mem_nil, or_false] at h
  obtain ⟨rfl, rfl⟩ | ⟨rfl, rfl⟩ | ⟨rfl, rfl⟩ | ⟨rfl, rfl⟩ := h <;> exact ⟨rfl, rfl, fun _ => rfl⟩

/-- Base and offset go to `LA` and `LB`; the other latches keep what they hold. -/
theorem latchOperands_opa_opb {s : State} {base offset : Word} (ha : s.ops.a = .known base)
    (hb : s.ops.b = .known offset) (f : OperandFile) :
    latchOperands s [.opa, .opb] f = .ok { f with a := .known base, b := .known offset } := by
  rw [latchOperands_cons_known (r := .opa) ha, latchOperands_cons_known (r := .opb) hb]
  rfl

/-- A reader's result is `MemRead` at base plus offset, added as integers (R92, R63). -/
theorem readerResult_latched {s : State} {base offset : Word} (ha : s.latches.a = .known base)
    (hb : s.latches.b = .known offset) (n : Nat) :
    readerResult n s = (memRead s (base.toNat + offset.toNat) n).mapError .overread := by
  rw [readerResult, latched_some (r := .opa) ha, latched_some (r := .opb) hb]
  dsimp only [bind, Except.bind, readerAddress]
  cases memRead s (base.toNat + offset.toNat) n <;> rfl

/-! ### The `S_EXEC` step of a reader -/

/-- The `S_EXEC` step of a command that meets an unreadable byte (R174). -/
theorem seqStep_overreads {i : Instr} {s : State} {a : Nat} (hstage : s.stage = .sExec) (hrun : s.running = some i)
    (ha : singleResult i s = .error (.overread a)) : seqStep s = .next (recordFault (.bufferOverread a) s) := by
  simp only [seqStep, hstage, execStep, hrun, ha]

/-- Settles O12: the issue latches base and offset, and the `S_EXEC` step's read of them is admitted. -/
theorem readersReadLittleEndianBytes : Obligations.ReadersReadLittleEndianBytes := by
  intro i width hreader s base offset hi ha hb hread
  obtain ⟨hdriver, hoperands, hresult⟩ := reader_meaning hreader
  have hlatch := latchOperands_opa_opb ha hb s.latches
  rw [← hoperands] at hlatch
  refine ⟨_, exec_single hdriver hi hlatch, rfl, seqStep_completes rfl rfl ?_⟩
  rw [hresult, readerResult_latched rfl rfl, memRead_ok]
  · rw [readLe_eq_foldl]
    rfl
  · exact hread

/-- Settles O13: the read stops at its lowest unreadable byte, and the recorded overread sticks. -/
theorem readerOverreadIsRecordedAndSticks : Obligations.ReaderOverreadIsRecordedAndSticks := by
  intro i width hreader s base offset k hstage hrun ha hb hk hread hbad
  obtain ⟨-, -, hresult⟩ := reader_meaning hreader
  have hmem : memRead s (base.toNat + offset.toNat) width = .error (base.toNat + offset.toNat + k) :=
    checkedRead_lowest _ hk hread hbad
  have hover : singleResult i s = .error (.overread (base.toNat + offset.toNat + k)) := by
    rw [hresult, readerResult_latched ha hb, hmem]
    rfl
  exact ⟨_, seqStep_overreads hstage hrun hover, rfl, mem_flogAdd s.flog _, step_recordFault rfl s⟩

end Sys2Proof.Machine

/-! SUPPORT. Proofs of the statements about the finalizer: the sum of a word and two of its rotates, the product with an
odd constant, `mix` made of them, the zero contracts of the mixers, and the command `MIX`. -/

namespace Sys2Proof.Machine

/-! ### A word plus two of its rotates -/

/-- The map `1 + ρ^a + ρ^b` over GF(2), `ρ` being the rotate by one bit: the shape of both outer stages of `mix` (R103)
and of the seed pre-mix (R160). -/
def xorRotl (a b : Nat) (x : Word) : Word := x ^^^ rotl64 x a ^^^ rotl64 x b

@[simp] theorem rotl64_zero_word (c : Nat) : rotl64 0#64 c = 0#64 := by
  apply BitVec.eq_of_getLsbD_eq
  intro i hi
  rw [getLsbD_rotl64 _ _ hi, BitVec.getLsbD_zero, BitVec.getLsbD_zero]

theorem rotl64_allOnes (c : Nat) : rotl64 (BitVec.allOnes 64) c = BitVec.allOnes 64 := by
  apply BitVec.eq_of_getLsbD_eq
  intro i hi
  rw [getLsbD_rotl64 _ _ hi, BitVec.getLsbD_allOnes, BitVec.getLsbD_allOnes, decide_eq_true hi]
  exact decide_eq_true (Nat.mod_lt _ (by decide))

@[simp] theorem xorRotl_zero_word (a b : Nat) : xorRotl a b 0#64 = 0#64 := by
  simp [xorRotl]

theorem xorRotl_allOnes (a b : Nat) : xorRotl a b (BitVec.allOnes 64) = BitVec.allOnes 64 := by
  rw [xorRotl, rotl64_allOnes, rotl64_allOnes, BitVec.xor_self, BitVec.zero_xor]

/-- The map is linear over GF(2). -/
theorem xorRotl_xor (a b : Nat) (x y : Word) : xorRotl a b (x ^^^ y) = xorRotl a b x ^^^ xorRotl a b y := by
  simp only [xorRotl, rotl64_xor]
  ac_rfl

/-- Over GF(2) the square of `1 + ρ^a + ρ^b` is `1 + ρ^(2a) + ρ^(2b)`: every mixed term appears twice. -/
theorem xorRotl_xorRotl (a b : Nat) (x : Word) : xorRotl a b (xorRotl a b x) = xorRotl (2 * a) (2 * b) x := by
  calc xorRotl a b (xorRotl a b x)
    _ = x ^^^ rotl64 x a ^^^ rotl64 x b ^^^ (rotl64 x a ^^^ rotl64 x (a + a) ^^^ rotl64 x (a + b))
          ^^^ (rotl64 x b ^^^ rotl64 x (a + b) ^^^ rotl64 x (b + b)) := by
      simp only [xorRotl, rotl64_xor, rotl64_rotl64, Nat.add_comm b a]
    _ = x ^^^ rotl64 x (a + a) ^^^ rotl64 x (b + b) ^^^ (rotl64 x a ^^^ rotl64 x a)
          ^^^ (rotl64 x b ^^^ rotl64 x b) ^^^ (rotl64 x (a + b) ^^^ rotl64 x (a + b)) := by ac_rfl
    _ = xorRotl (2 * a) (2 * b) x := by simp [xorRotl, two_mul]

/-- At whole turns the three terms are equal, and two of them cancel. -/
theorem xorRotl_of_mod_eq_zero {a b : Nat} (ha : a % 64 = 0) (hb : b % 64 = 0) : xorRotl a b = id := by
  funext x
  simp [xorRotl, rotl64_of_mod_eq_zero x ha, rotl64_of_mod_eq_zero x hb]

/-- A map whose square is bijective is bijective. -/
theorem xorRotl_bijective_of_double {a b : Nat} (h : Function.Bijective (xorRotl (2 * a) (2 * b))) :
    Function.Bijective (xorRotl a b) := by
  have hsquare : xorRotl a b ∘ xorRotl a b = xorRotl (2 * a) (2 * b) := funext (xorRotl_xorRotl a b)
  rw [← hsquare] at h
  exact ⟨h.injective.of_comp, h.surjective.of_comp⟩

/-- Doubling the counts `k` times makes whole turns of them. -/
theorem xorRotl_bijective_of_pow (k : Nat) {a b : Nat} (ha : 2 ^ k * a % 64 = 0) (hb : 2 ^ k * b % 64 = 0) :
    Function.Bijective (xorRotl a b) := by
  induction k generalizing a b with
  | zero =>
    rw [xorRotl_of_mod_eq_zero (by simpa using ha) (by simpa using hb)]
    exact Function.bijective_id
  | succ k ih =>
    rw [pow_succ, mul_assoc] at ha hb
    exact xorRotl_bijective_of_double (ih ha hb)

/-- Six doublings take any counts to whole turns, since a word has `2^6` bits (R103). -/
theorem xorRotl_bijective (a b : Nat) : Function.Bijective (xorRotl a b) :=
  xorRotl_bijective_of_pow 6 (Nat.mul_mod_right 64 a) (Nat.mul_mod_right 64 b)

/-! ### The product with an odd constant -/

/-- An odd word has an inverse modulo `2^64`. -/
theorem isUnit_of_isOdd {k : Word} (h : IsOdd k) : IsUnit k := by
  have hcoprime : Nat.Coprime k.toNat (2 ^ 64) := (Nat.coprime_two_right.mpr (Nat.odd_iff.mpr h)).pow_right 64
  obtain ⟨m, -, hm⟩ := Nat.exists_mul_mod_eq_one_of_coprime hcoprime (by decide)
  refine IsUnit.of_mul_eq_one (BitVec.ofNat 64 m) (BitVec.eq_of_toNat_eq ?_)
  rw [BitVec.toNat_mul, BitVec.toNat_ofNat, Nat.mul_mod_mod, hm]
  rfl

theorem mul_bijective_of_isOdd {k : Word} (h : IsOdd k) : Function.Bijective (fun y : Word => y * k) :=
  IsUnit.isUnit_iff_mulRight_bijective.mp (isUnit_of_isOdd h)

/-! ### The finalizer function -/

theorem mixFirst_eq : mixFirst = xorRotl 23 43 := rfl

theorem mixLast_eq : mixLast = xorRotl 11 50 := rfl

theorem mix_eq (c : Config) (x : Word) : mix c x = mixLast (mixFirst x * c.kC) := rfl

@[simp] theorem mix_zero (c : Config) : mix c 0#64 = 0#64 := by
  simp [mix_eq, mixFirst_eq, mixLast_eq]

theorem mixFirst_bijective : Function.Bijective mixFirst := mixFirst_eq ▸ xorRotl_bijective 23 43

theorem mixLast_bijective : Function.Bijective mixLast := mixLast_eq ▸ xorRotl_bijective 11 50

/-- The three stages are bijections, the middle one because `K_C` is odd (R103). -/
theorem mix_bijective {c : Config} (hc : IsOdd c.kC) : Function.Bijective (mix c) :=
  mixLast_bijective.comp ((mul_bijective_of_isOdd hc).comp mixFirst_bijective)

theorem eq_zero_of_mix_eq_zero {c : Config} (hc : IsOdd c.kC) {x : Word} (h : mix c x = 0) : x = 0 :=
  (mix_bijective hc).injective (h.trans (mix_zero c).symm)

/-- Settles O37: each clause of R103 by its own lemma. -/
theorem mixIsABijection : Obligations.MixIsABijection := by
  intro c ⟨hC, _⟩
  exact ⟨mix_eq c, fun _ => rfl, fun _ => rfl, fun x y => ⟨xorRotl_xor 23 43 x y, xorRotl_xor 11 50 x y⟩,
    mixFirst_bijective, mul_bijective_of_isOdd hC, mixLast_bijective, mix_bijective hC,
    fun _ => eq_zero_of_mix_eq_zero hC, xorRotl_allOnes 23 43⟩

/-! ### The zero contracts -/

@[simp] theorem mixStream_zero (c : Config) : mixStream c 0#64 0#64 = 0#64 := by
  simp [mixStream]

/-- Four zero words add nothing to `h` (R117). -/
@[simp] theorem mixStreamBulk_zero (c : Config) (h : Word) : mixStreamBulk c h 0#64 0#64 0#64 0#64 = h := by
  simp [mixStreamBulk]

/-- Settles O36: the contracts of R102, R112 and R117, none of which needs an odd constant. -/
theorem zeroContractsHoldForEveryConstant : Obligations.ZeroContractsHoldForEveryConstant :=
  fun c => ⟨mix_zero c, mixStream_zero c, mixStreamBulk_zero c⟩

/-! ### The command `MIX` -/

theorem singleResult_mix {s : State} {x : Word} (ha : s.latches.get .opa = .known x) :
    singleResult .mix s = .ok (mix s.cfg x) := by
  rw [singleResult, resultMix, latched_some ha]
  rfl

/-- Settles O14: `OPA` is latched, and the `S_EXEC` step writes `mix` of the latch, whose stages are R100's lines. -/
theorem mixFinalizesOpa : Obligations.MixFinalizesOpa := by
  intro s x hi ha
  have hlatch : latchOperands s (operandsRead .mix) s.latches = .ok (s.latches.set .opa x) := by
    rw [operandsRead, latchOperands_cons_known (r := .opa) ha, latchOperands]
  exact ⟨_, exec_single rfl hi hlatch, rfl, mixFirst x, mixFirst x * s.cfg.kC, rfl, rfl,
    seqStep_completes rfl rfl (singleResult_mix rfl)⟩

end Sys2Proof.Machine

/-! SUPPORT. Proofs of the statements about the stream mixers: `mix_stream` as an xorshift between products with the odd
`K_C`, `mix_stream_bulk` as the accumulator plus one term for each word, and the commands `MIXS` and `MIXB`. -/

namespace Sys2Proof.Machine

/-! ### The single-word mixer -/

/-- The xorshift `s(y) = y ^ (y >> 39)` of R110. -/
def xorShift39 (y : Word) : Word := y ^^^ (y >>> 39)

/-- The closed form of R110. -/
theorem mixStream_eq (c : Config) (h x : Word) : mixStream c h x = (h + xorShift39 (x * c.kC) * c.kC) * c.kC := rfl

theorem xorShift39_zero : xorShift39 0#64 = 0#64 := by
  simp [xorShift39]

/-- The xorshift undoes itself: two shifts by 39 leave no bit of a word. -/
theorem xorShift39_involutive : Function.Involutive xorShift39 := by
  intro y
  have hout : y >>> 39 >>> 39 = 0#64 := by
    rw [← BitVec.shiftRight_add, BitVec.ushiftRight_eq_zero (by decide)]
  calc xorShift39 (xorShift39 y)
    _ = y ^^^ (y >>> 39 ^^^ y >>> 39) ^^^ y >>> 39 >>> 39 := by
      simp only [xorShift39, BitVec.ushiftRight_xor_distrib]
      ac_rfl
    _ = y := by rw [hout, BitVec.xor_self, BitVec.xor_zero, BitVec.xor_zero]

/-- Law 1 of R113. -/
theorem mixStream_zero_word (c : Config) (h : Word) : mixStream c h 0#64 = h * c.kC := by
  rw [mixStream_eq, BitVec.zero_mul, xorShift39_zero, BitVec.zero_mul, BitVec.add_zero]

/-- Law 2 of R113: an addition followed by the product with `K_C`. -/
theorem mixStream_bijective_acc {c : Config} (hc : IsOdd c.kC) (x : Word) :
    Function.Bijective (fun h => mixStream c h x) :=
  (mul_bijective_of_isOdd hc).comp (Equiv.addRight (xorShift39 (x * c.kC) * c.kC)).bijective

/-- Law 3 of R113: the product with `K_C`, the xorshift, the product again, and law 2's addition and product. -/
theorem mixStream_bijective_word {c : Config} (hc : IsOdd c.kC) (h : Word) : Function.Bijective (mixStream c h) :=
  have hmul := mul_bijective_of_isOdd hc
  hmul.comp ((Equiv.addLeft h).bijective.comp (hmul.comp (xorShift39_involutive.bijective.comp hmul)))

/-- Law 4 of R113: the word's part cancels. -/
theorem mixStream_sub (c : Config) (h h' x : Word) : mixStream c h x - mixStream c h' x = (h - h') * c.kC := by
  rw [mixStream_eq, mixStream_eq]
  ring

/-- Settles O38: each law of R113 by its own lemma; only the two bijections need `K_C` odd. -/
theorem mixStreamLawsHold : Obligations.MixStreamLawsHold := by
  intro c ⟨hC, _⟩
  exact ⟨mixStream_zero_word c, mixStream_bijective_acc hC, mixStream_bijective_word hC, mixStream_sub c⟩

/-! ### The bulk mixer -/

/-- What one word adds to the bulk mixer: `q` is the constant of the product that takes it rotated, `t` that of the
product that takes it away (R118, law 2). -/
def bulkTerm (q t w : Word) : Word := rotl64 w 29 * q - w * t

@[simp] theorem bulkTerm_zero (q t : Word) : bulkTerm q t 0#64 = 0#64 := by
  simp [bulkTerm]

/-- The bulk mixer is the accumulator plus one term for each word: the products distribute over their subtractions. -/
theorem mixStreamBulk_eq (k : Config) (h a b c d : Word) : mixStreamBulk k h a b c d =
    h + (bulkTerm k.kQ k.kT a + bulkTerm k.kR k.kS b + bulkTerm k.kS k.kQ c + bulkTerm k.kT k.kR d) := by
  simp only [mixStreamBulk, bulkTerm]
  ring

/-- Law 1 of R118. -/
theorem mixStreamBulk_eq_acc_add (k : Config) (h a b c d : Word) :
    mixStreamBulk k h a b c d = h + mixStreamBulk k 0 a b c d := by
  rw [mixStreamBulk_eq, mixStreamBulk_eq k 0, zero_add]

theorem mixStreamBulk_bijective_acc (k : Config) (a b c d : Word) :
    Function.Bijective (fun h => mixStreamBulk k h a b c d) := by
  simp only [mixStreamBulk_eq]
  exact (Equiv.addRight _).bijective

/-- Law 2 of R118: with three words zero only the term of the fourth is left. -/
theorem mixStreamBulk_single (k : Config) (w : Word) :
    mixStreamBulk k 0 w 0 0 0 = bulkTerm k.kQ k.kT w ∧ mixStreamBulk k 0 0 w 0 0 = bulkTerm k.kR k.kS w ∧
      mixStreamBulk k 0 0 0 w 0 = bulkTerm k.kS k.kQ w ∧ mixStreamBulk k 0 0 0 0 w = bulkTerm k.kT k.kR w := by
  simp [mixStreamBulk_eq]

/-- Law 3 of R118. -/
theorem mixStreamBulk_eq_sum (k : Config) (a b c d : Word) :
    mixStreamBulk k 0 a b c d = mixStreamBulk k 0 a 0 0 0 + mixStreamBulk k 0 0 b 0 0 + mixStreamBulk k 0 0 0 c 0
      + mixStreamBulk k 0 0 0 0 d := by
  simp only [mixStreamBulk_single]
  rw [mixStreamBulk_eq, zero_add]

/-- The rotate carries the top bit to bit 28, so that two top bits, whose sum wraps to zero, do not cancel. -/
theorem rotl64_29_not_additive :
    rotl64 (0x8000000000000000 + 0x8000000000000000) 29 ≠
      rotl64 0x8000000000000000 29 + rotl64 0x8000000000000000 29 := by decide

/-- A term is additive at two words only where the rotate is: its other product always is, and an odd constant cancels
from its first. -/
theorem bulkTerm_add_iff {q : Word} (hq : IsOdd q) (t x y : Word) :
    bulkTerm q t (x + y) = bulkTerm q t x + bulkTerm q t y ↔ rotl64 (x + y) 29 = rotl64 x 29 + rotl64 y 29 := by
  have hsum : bulkTerm q t x + bulkTerm q t y = (rotl64 x 29 + rotl64 y 29) * q - (x + y) * t := by
    simp only [bulkTerm]
    ring
  rw [hsum, bulkTerm, sub_left_inj]
  exact (mul_bijective_of_isOdd hq).injective.eq_iff

/-- Law 4 of R118, for one term. -/
theorem bulkTerm_not_additive {q : Word} (hq : IsOdd q) (t : Word) :
    ∃ x y, bulkTerm q t (x + y) ≠ bulkTerm q t x + bulkTerm q t y :=
  ⟨_, _, mt (bulkTerm_add_iff hq t _ _).mp rotl64_29_not_additive⟩

/-- Settles O39: laws 1 to 3 for any constants, each by its own lemma, and law 4 for the term of each word. -/
theorem mixStreamBulkLawsHold : Obligations.MixStreamBulkLawsHold := by
  refine ⟨fun k => ⟨mixStreamBulk_eq_acc_add k, mixStreamBulk_bijective_acc k, mixStreamBulk_single k,
    mixStreamBulk_eq_sum k⟩, ⟨_, _, rotl64_29_not_additive⟩, ?_⟩
  intro k ⟨_, hQ, hR, hS, hT⟩
  simp only [mixStreamBulk_single]
  exact ⟨bulkTerm_not_additive hQ _, bulkTerm_not_additive hR _, bulkTerm_not_additive hS _,
    bulkTerm_not_additive hT _⟩

/-! ### The commands `MIXS` and `MIXB` -/

theorem singleResult_mixs {s : State} {h x : Word} (ha : s.latches.get .opa = .known h)
    (hb : s.latches.get .opb = .known x) : singleResult .mixs s = .ok (mixStream s.cfg h x) := by
  rw [singleResult, resultMixs, latched_some ha, latched_some hb]
  rfl

/-- Settles O15: both operands are latched, and the `S_EXEC` step writes `mix_stream` of the latches, which is R110's
closed form up to the order of its products. -/
theorem mixsFoldsOneWord : Obligations.MixsFoldsOneWord := by
  intro s h x hi ha hb
  refine ⟨_, exec_single rfl hi (latchOperands_opa_opb ha hb s.latches), rfl, _, rfl, ?_⟩
  rw [mul_comm s.cfg.kC x, mul_comm s.cfg.kC]
  exact seqStep_completes rfl rfl (singleResult_mixs rfl rfl)

/-- A command that reads every operand register latches the whole file, whatever the latches held. -/
theorem latchOperands_all {s : State} {rs : List OpReg} (hall : ∀ r, r ∈ rs)
    (hknown : ∀ r, (s.ops.get r).isKnown = true) (f : OperandFile) : latchOperands s rs f = .ok s.ops := by
  obtain ⟨g, hg⟩ := latchOperands_total f (fun r _ => hknown r)
  rw [hg, OperandFile.ext_get fun r => ((latchOperands_ok hg).1 r (hall r)).2]

theorem mem_operandsRead_mixb (r : OpReg) : r ∈ operandsRead .mixb := by
  cases r <;> decide

theorem singleResult_mixb {s : State} {h a b c d : Word}
    (hlatches : s.latches = ⟨.known h, .known a, .known b, .known c, .known d⟩) :
    singleResult .mixb s = .ok (mixStreamBulk s.cfg h a b c d) := by
  have hget := congrFun (congrArg OperandFile.get hlatches)
  rw [singleResult, resultMixb, latched_some (hget .opa), latched_some (hget .opb), latched_some (hget .opc),
    latched_some (hget .opd), latched_some (hget .ope)]
  rfl

/-- Settles O16: the five operands are latched, and the `S_EXEC` step writes `mix_stream_bulk` of the latches. -/
theorem mixbFoldsFourWords : Obligations.MixbFoldsFourWords := by
  intro s h a b c d hi hops
  have hknown (r : OpReg) : (s.ops.get r).isKnown = true := by
    rw [hops]
    cases r <;> rfl
  have hlatch := latchOperands_all mem_operandsRead_mixb hknown s.latches
  exact ⟨_, exec_single rfl hi hlatch, rfl, seqStep_completes rfl rfl (singleResult_mixb hops)⟩

end Sys2Proof.Machine

/-! SUPPORT. Proofs of the statements about the driver: what each stage's step does, how the reference digest unwinds along
the driver's loop, and that a driver command ends with it. -/

namespace Sys2Proof.Machine

/-! ### Runs of consecutive addresses -/

/-- What holds of `m + n` consecutive addresses holds of the first `m` and of the other `n`. -/
theorem forall_addr_add {P : Nat → Prop} {a m n : Nat} :
    (∀ k, k < m + n → P (a + k)) ↔ (∀ k, k < m → P (a + k)) ∧ ∀ k, k < n → P (a + m + k) := by
  constructor
  · intro h
    refine ⟨fun k hk => h k (by omega), fun k hk => ?_⟩
    rw [Nat.add_assoc]
    exact h (m + k) (by omega)
  · rintro ⟨hlo, hhi⟩ k hk
    by_cases hkm : k < m
    · exact hlo k hkm
    · obtain ⟨j, rfl⟩ := Nat.exists_eq_add_of_le (Nat.le_of_not_lt hkm)
      rw [← Nat.add_assoc]
      exact hhi j (by omega)

theorem readable_append {s : State} {a m n : Nat} (hlo : s.Readable a m) (hhi : s.Readable (a + m) n) :
    s.Readable a (m + n) :=
  forall_addr_add (P := (readableByte s · = true)).mpr ⟨hlo, hhi⟩

/-- A step that reads records the lowest byte it may not read (R174). -/
theorem readOrRecord_overread {s : State} {p w k : Nat} (next : Word → State) (x : Word) (hk : k < w)
    (hread : s.Readable p k) (hbad : readableByte s (p + k) = false) :
    readOrRecord s next (checkedRead s p w x) = recordFault (.bufferOverread (p + k)) s := by
  rw [checkedRead_lowest x hk hread hbad, readOrRecord]

/-! ### The tail's value -/

/-- The rows of R136 are the little-endian read of the tail, cut into reads of 4, 2 and 1 bytes. -/
theorem tailValue_eq_readLe (byte : Nat → Byte) (p : Nat) {n : Nat} (hn : n < 8) :
    tailValue byte p n = readLe byte p n := by
  match n, hn with
  | 0, _ | 1, _ | 2, _ | 4, _ => rfl
  | 3, _ => exact (readLe_append byte p 2 1).symm
  | 5, _ => exact (readLe_append byte p 4 1).symm
  | 6, _ => exact (readLe_append byte p 4 2).symm
  | 7, _ =>
    rw [readLe_append byte p 6 1, readLe_append byte p 4 2]
    rfl

/-- The number whose base-256 digits, lowest first, are the `n` bytes at `a`. -/
def littleEndian (byte : Nat → Byte) (a n : Nat) : Nat :=
  ((List.range n).map fun k => (byte (a + k)).toNat * 2 ^ (8 * k)).sum

theorem littleEndian_succ (byte : Nat → Byte) (a n : Nat) :
    littleEndian byte a (n + 1) = littleEndian byte a n + (byte (a + n)).toNat * 2 ^ (8 * n) := by
  simp [littleEndian, List.range_succ]

theorem littleEndian_lt (byte : Nat → Byte) (a n : Nat) : littleEndian byte a n < 2 ^ (8 * n) := by
  induction n with
  | zero => exact Nat.one_pos
  | succ n ih =>
    have hb : (byte (a + n)).toNat + 1 ≤ 2 ^ 8 := (byte (a + n)).isLt
    calc littleEndian byte a (n + 1)
      _ = littleEndian byte a n + (byte (a + n)).toNat * 2 ^ (8 * n) := littleEndian_succ byte a n
      _ < ((byte (a + n)).toNat + 1) * 2 ^ (8 * n) := by rw [Nat.add_one_mul (byte (a + n)).toNat]; omega
      _ ≤ 2 ^ 8 * 2 ^ (8 * n) := Nat.mul_le_mul_right _ hb
      _ = 2 ^ (8 * (n + 1)) := by rw [← Nat.pow_add, Nat.mul_add, Nat.add_comm]

/-- A read of up to 8 bytes is their little-endian number (R45): the shifted bytes do not overlap. -/
theorem toNat_readLe (byte : Nat → Byte) (a : Nat) {n : Nat} (hn : n ≤ 8) :
    (readLe byte a n).toNat = littleEndian byte a n := by
  induction n with
  | zero => rfl
  | succ n ih =>
    have hfit : littleEndian byte a (n + 1) < 2 ^ 64 :=
      (littleEndian_lt byte a (n + 1)).trans_le (Nat.pow_le_pow_right (by decide) (by omega))
    rw [littleEndian_succ] at hfit ⊢
    have hbyte : (zext64 (byte (a + n)) <<< (8 * n)).toNat = (byte (a + n)).toNat <<< (8 * n) := by
      rw [BitVec.toNat_shiftLeft, BitVec.toNat_setWidth_of_le (by decide), Nat.mod_eq_of_lt]
      rw [Nat.shiftLeft_eq]
      omega
    rw [readLe, BitVec.toNat_or, ih (by omega), hbyte, Nat.or_comm,
      ← Nat.shiftLeft_add_eq_or_of_lt (littleEndian_lt byte a n), Nat.shiftLeft_eq, Nat.add_comm]

/-- Settles O35: the composed tail is the little-endian read of the tail's bytes. -/
theorem tailValueIsTheLittleEndianTail : Obligations.TailValueIsTheLittleEndianTail := by
  intro byte p n _ hn
  have hvalue : (tailValue byte p n).toNat = littleEndian byte p n := by
    rw [tailValue_eq_readLe byte p (by omega), toNat_readLe byte p (by omega)]
  exact ⟨hvalue, hvalue ▸ littleEndian_lt byte p n⟩

/-! ### The steps of the driver's stages -/

section
variable {s : State} {h n : Word} {p : Nat}

section
variable (hh : s.h = .known h) (hn : s.n = .known n) (hp : s.p = .known p)
include hh hn hp

theorem seqStep_sBlock (hstage : s.stage = .sBlock) : seqStep s = blockStep h n p s := by
  simp only [seqStep, hstage, driverStep_some hh hn hp]

theorem seqStep_sWord (hstage : s.stage = .sWord) : seqStep s = wordStep h n p s := by
  simp only [seqStep, hstage, driverStep_some hh hn hp]

theorem seqStep_sTail (hstage : s.stage = .sTail) : seqStep s = tailStep h n p s := by
  simp only [seqStep, hstage, driverStep_some hh hn hp]

theorem seqStep_sFinal (hstage : s.stage = .sFinal) : seqStep s = finalStep h n p s := by
  simp only [seqStep, hstage, driverStep_some hh hn hp]

end

theorem blockStep_leaves (hlt : n.toNat < 64) : blockStep h n p s = .next { s with stage := .sWord } :=
  if_neg (Nat.not_le.mpr hlt)

/-- R134, the eight words written as one `blockMix`. -/
theorem blockStep_consumes (hge : 64 ≤ n.toNat) (hread : s.Readable p 64) :
    blockStep h n p s = .next { s with
      h := .known (blockMix s.cfg (byteAt s) p h), p := .known (p + 64), n := .known (n - 64) } := by
  rw [blockStep, if_pos hge, checkedRead_ok _ hread, readOrRecord]

theorem wordStep_leaves (hlt : n.toNat < 8) : wordStep h n p s = .next { s with stage := .sTail } :=
  if_neg (Nat.not_le.mpr hlt)

theorem wordStep_folds (hge : 8 ≤ n.toNat) (hread : s.Readable p 8) :
    wordStep h n p s = .next { s with
      h := .known (mixStream s.cfg h (readLe (byteAt s) p 8)), p := .known (p + 8), n := .known (n - 8) } := by
  rw [wordStep, if_pos hge, memRead_ok hread, readOrRecord]

/-- R136 in all its rows, `N = 0` among them: the tail of the reference function. -/
theorem tailStep_folds (hh : s.h = .known h) (hlt : n.toNat < 8) (hread : s.Readable p n.toNat) :
    tailStep h n p s = .next { s with
      h := .known (refTail s.cfg (byteAt s) p h n.toNat), n := .known 0, stage := .sFinal } := by
  rw [tailStep, refTail]
  by_cases h0 : n.toNat = 0
  · rw [if_pos h0, if_pos h0, ← hh]
  · rw [if_neg h0, if_neg h0, if_pos hlt, checkedRead_ok _ hread, readOrRecord]

end

/-- Settles O21: the eight words' reads make the block readable, and `blockMix` is the two halves. -/
theorem blockStepConsumesTwoHalves : Obligations.BlockStepConsumesTwoHalves := by
  intro s h n p hstage hh hn hp
  have hstep : seqStep s = blockStep h n p s := seqStep_sBlock hh hn hp hstage
  refine ⟨fun hlt => hstep.trans (blockStep_leaves hlt), ?_, ?_⟩
  · intro hge w0 w1 w2 w3 w4 w5 w6 w7 h1 hw0 hw1 hw2 hw3 hw4 hw5 hw6 hw7 rfl
    obtain ⟨hr0, rfl⟩ := memRead_eq_ok hw0
    obtain ⟨hr1, rfl⟩ := memRead_eq_ok hw1
    obtain ⟨hr2, rfl⟩ := memRead_eq_ok hw2
    obtain ⟨hr3, rfl⟩ := memRead_eq_ok hw3
    obtain ⟨hr4, rfl⟩ := memRead_eq_ok hw4
    obtain ⟨hr5, rfl⟩ := memRead_eq_ok hw5
    obtain ⟨hr6, rfl⟩ := memRead_eq_ok hw6
    obtain ⟨hr7, rfl⟩ := memRead_eq_ok hw7
    have hhalf : s.Readable p 32 := readable_append (readable_append (readable_append hr0 hr1) hr2) hr3
    have hread : s.Readable p 64 :=
      readable_append (readable_append (readable_append (readable_append hhalf hr4) hr5) hr6) hr7
    exact hstep.trans (blockStep_consumes hge hread)
  · intro hge k hk hread hbad
    refine ⟨recordFault (.bufferOverread (p + k)) s, ?_, rfl, mem_flogAdd s.flog _⟩
    rw [hstep, blockStep, if_pos hge, readOrRecord_overread _ _ hk hread hbad]

/-- Settles O22: the three ways of a `S_WORD` step. -/
theorem wordStepFoldsOneChunk : Obligations.WordStepFoldsOneChunk := by
  intro s h n p hstage hh hn hp
  have hstep : seqStep s = wordStep h n p s := seqStep_sWord hh hn hp hstage
  refine ⟨fun hlt => hstep.trans (wordStep_leaves hlt), ?_, ?_⟩
  · intro hge w hw
    obtain ⟨hread, rfl⟩ := memRead_eq_ok hw
    exact hstep.trans (wordStep_folds hge hread)
  · intro hge k hk hread hbad
    refine ⟨recordFault (.bufferOverread (p + k)) s, ?_, rfl, mem_flogAdd s.flog _⟩
    rw [hstep, wordStep, if_pos hge, memRead, readOrRecord_overread _ _ hk hread hbad]

/-- Settles O23: each row's reads make the tail readable, and its composed value is `tailValue`. -/
theorem tailStepTakesExactlyOneRow : Obligations.TailStepTakesExactlyOneRow := by
  intro s h n p hstage hh hn hp
  have hstep : seqStep s = tailStep h n p s := seqStep_sTail hh hn hp hstage
  refine ⟨?_, ?_, ?_⟩
  · rintro rfl
    exact hstep.trans (if_pos rfl)
  · intro v hrow
    have htail : 0 < n.toNat ∧ n.toNat < 8 ∧ s.Readable p n.toNat ∧ v = tailValue (byteAt s) p n.toNat := by
      rcases hrow with ⟨rfl, hv⟩ | ⟨rfl, hv⟩ | ⟨rfl, a, b, ha, hb, rfl⟩ | ⟨rfl, hv⟩ | ⟨rfl, a, b, ha, hb, rfl⟩ |
        ⟨rfl, a, b, ha, hb, rfl⟩ | ⟨rfl, a, b, c, ha, hb, hc, rfl⟩
      case inl | inr.inl | inr.inr.inr.inl =>
        obtain ⟨hread, rfl⟩ := memRead_eq_ok hv
        exact ⟨by decide, by decide, hread, rfl⟩
      case inr.inr.inr.inr.inr.inr =>
        obtain ⟨hra, rfl⟩ := memRead_eq_ok ha
        obtain ⟨hrb, rfl⟩ := memRead_eq_ok hb
        obtain ⟨hrc, rfl⟩ := memRead_eq_ok hc
        exact ⟨by decide, by decide, readable_append (readable_append hra hrb) hrc, rfl⟩
      all_goals
        obtain ⟨hra, rfl⟩ := memRead_eq_ok ha
        obtain ⟨hrb, rfl⟩ := memRead_eq_ok hb
        exact ⟨by decide, by decide, readable_append hra hrb, rfl⟩
    obtain ⟨hpos, hlt, hread, rfl⟩ := htail
    have hfold := tailStep_folds hh hlt hread
    rw [refTail, if_neg (by omega)] at hfold
    exact hstep.trans hfold
  · intro hlt k hk hread hbad
    refine ⟨recordFault (.bufferOverread (p + k)) s, ?_, rfl, mem_flogAdd s.flog _⟩
    rw [hstep, tailStep, if_neg (by omega), if_pos hlt, readOrRecord_overread _ _ hk hread hbad]

/-- Settles O24: the `S_FINAL` step is the driver's completion. -/
theorem finalStepWritesTheDigest : Obligations.FinalStepWritesTheDigest :=
  fun _ _ _ _ hstage hh hn hp => seqStep_sFinal hh hn hp hstage

/-- Settles O19: `HASHI` passes `OPC` on as its seed (R130). -/
theorem hashiInitialisesWithTheRawSeed : Obligations.HashiInitialisesWithTheRawSeed :=
  fun _ _ _ _ hi ha hb hc => exec_driver rfl hi ha hb fun _ => hc

/-! ### The reference digest along the driver's loop -/

/-- The digest that is still to come out of an accumulator `h` with `n` bytes at `p` left to read: steps 2 to 5 of
R132. The driver's steps keep it. -/
def remainingDigest (c : Config) (byte : Nat → Byte) (p : Nat) (h : Word) (n : Nat) : Word :=
  mix c (refTail c byte (p + 64 * (n / 64) + 8 * (n % 64 / 8))
    (refWords c byte (p + 64 * (n / 64)) (refBlocks c byte p h (n / 64)) (n % 64 / 8)) (n % 8))

section
variable (c : Config) (byte : Nat → Byte)

theorem axhashInternal_eq (base len seed : Word) :
    axhashInternal c byte base len seed = remainingDigest c byte base.toNat (len ^^^ seed) len.toNat := rfl

theorem remainingDigest_block (p : Nat) (h : Word) (n : Nat) :
    remainingDigest c byte p h (64 + n) = remainingDigest c byte (p + 64) (blockMix c byte p h) n := by
  have hblocks : (64 + n) / 64 = n / 64 + 1 := by omega
  have hwords : (64 + n) % 64 = n % 64 := by omega
  have htail : (64 + n) % 8 = n % 8 := by omega
  have hp : p + 64 * (n / 64 + 1) = p + 64 + 64 * (n / 64) := by omega
  rw [remainingDigest, hblocks, hwords, htail, hp, refBlocks_succ, remainingDigest]

theorem remainingDigest_word (p : Nat) (h : Word) {n : Nat} (hn : 8 + n < 64) :
    remainingDigest c byte p h (8 + n) = remainingDigest c byte (p + 8) (mixStream c h (readLe byte p 8)) n := by
  have hblocks : (8 + n) / 64 = n / 64 := by omega
  have hnone : n / 64 = 0 := by omega
  have hwords : (8 + n) % 64 / 8 = n % 64 / 8 + 1 := by omega
  have htail : (8 + n) % 8 = n % 8 := by omega
  have hp : p + 64 * 0 + 8 * (n % 64 / 8 + 1) = p + 8 + 64 * 0 + 8 * (n % 64 / 8) := by omega
  rw [remainingDigest, hblocks, hwords, htail, hnone, hp, refWords_succ, remainingDigest, hnone]
  rfl

theorem remainingDigest_tail (p : Nat) (h : Word) {n : Nat} (hn : n < 8) :
    remainingDigest c byte p h n = mix c (refTail c byte p h n) := by
  have hblocks : n / 64 = 0 := by omega
  have hwords : n % 64 / 8 = 0 := by omega
  rw [remainingDigest, hblocks, hwords, Nat.mod_eq_of_lt hn]
  rfl

end

/-- Settles O29: nothing is read, and the tail of no bytes leaves the accumulator `0 ^ seed0` (R143). -/
theorem zeroLengthDigestIsMixOfTheSeed : Obligations.ZeroLengthDigestIsMixOfTheSeed := by
  intro c byte base seed
  have hzero (seed0 : Word) : axhashInternal c byte base 0 seed0 = mix c seed0 := by
    rw [axhashInternal_eq, remainingDigest_tail c byte _ _ (by decide)]
    exact congrArg (mix c) BitVec.zero_xor
  exact ⟨hzero seed, (hzero 0).trans (mix_zero c)⟩

/-! ### The digest depends on its bytes only -/

theorem blockMix_congr {c : Config} {f g : Nat → Byte} {p : Nat} (hfg : ∀ k, k < 64 → f (p + k) = g (p + k))
    (h : Word) : blockMix c f p h = blockMix c g p h := by
  have hword : ∀ i, i < 8 → readLe f (p + 8 * i) 8 = readLe g (p + 8 * i) 8 := by
    refine fun i hi => readLe_congr fun k hk => ?_
    rw [Nat.add_assoc]
    exact hfg (8 * i + k) (by omega)
  simp (disch := decide) only [blockMix, hword]

theorem refTail_congr {c : Config} {f g : Nat → Byte} {p n : Nat} (hn : n < 8)
    (hfg : ∀ k, k < n → f (p + k) = g (p + k)) (h : Word) : refTail c f p h n = refTail c g p h n := by
  rw [refTail, refTail, tailValue_eq_readLe f p hn, tailValue_eq_readLe g p hn, readLe_congr hfg]

theorem remainingDigest_congr {c : Config} {f g : Nat → Byte} {p n : Nat} (hfg : ∀ k, k < n → f (p + k) = g (p + k))
    (h : Word) : remainingDigest c f p h n = remainingDigest c g p h n := by
  induction n using Nat.strong_induction_on generalizing p h with
  | _ n ih =>
    by_cases hblock : 64 ≤ n
    · obtain ⟨m, rfl⟩ := Nat.exists_eq_add_of_le hblock
      obtain ⟨hnow, hlater⟩ := forall_addr_add (P := fun x => f x = g x).mp hfg
      rw [remainingDigest_block, remainingDigest_block, blockMix_congr hnow, ih m (by omega) hlater]
    · by_cases hword : 8 ≤ n
      · obtain ⟨m, rfl⟩ := Nat.exists_eq_add_of_le hword
        obtain ⟨hnow, hlater⟩ := forall_addr_add (P := fun x => f x = g x).mp hfg
        rw [remainingDigest_word c f p h (by omega), remainingDigest_word c g p h (by omega), readLe_congr hnow,
          ih m (by omega) hlater]
      · rw [remainingDigest_tail c f p h (by omega), remainingDigest_tail c g p h (by omega),
          refTail_congr (by omega) hfg]

/-- Settles O28: the digest's loop reads only the bytes that are left. -/
theorem digestDependsOnlyOnItsBytes : Obligations.DigestDependsOnlyOnItsBytes :=
  fun _ _ _ _ _ _ hfg => remainingDigest_congr hfg _

/-! ### A driver command ends with the reference digest -/

/-- The driver command that runs in `v`, issued in `s`, is busy for `k` steps and then ends in `DONE` with the digest
`y`: `Y`, `H`, `N`, `P` and `STAGE` are all that it has changed. -/
def CompletesIn (s : State) (y : Word) (k : Nat) (v : State) : Prop :=
  (∀ j, j < k → ∃ u, run j v = .next u ∧ busy u = true) ∧ run k v = .next (completeDriver y s)

theorem CompletesIn.later {s u v : State} {y : Word} {k : Nat} (hbusy : busy v = true) (hstep : step v = .next u)
    (hu : CompletesIn s y k u) : CompletesIn s y (k + 1) v := by
  obtain ⟨hrun, hend⟩ := hu
  refine ⟨fun j hj => ?_, (run_step hstep).trans hend⟩
  cases j with
  | zero => exact ⟨v, rfl, hbusy⟩
  | succ j =>
    rw [run_step hstep]
    exact hrun j (by omega)

section
variable {s : State} (hstuck : stuck s = false) (hprog : s.program = [])
include hstuck hprog

theorem completesIn_final (h n : Word) (p : Nat) : CompletesIn s (mix s.cfg h) 1 (driving s .sFinal h n p) := by
  have hstep : step (driving s .sFinal h n p) = .next (completeDriver (mix s.cfg h) s) :=
    step_driving hstuck hprog ..
  exact .later rfl hstep ⟨nofun, rfl⟩

theorem completesIn_tail {h n : Word} {p : Nat} (hn : n.toNat < 8) (hread : s.Readable p n.toNat) :
    CompletesIn s (remainingDigest s.cfg (byteAt s) p h n.toNat) 2 (driving s .sTail h n p) := by
  have hstep : step (driving s .sTail h n p) =
      .next (driving s .sFinal (refTail s.cfg (byteAt s) p h n.toNat) 0 p) :=
    (step_driving hstuck hprog ..).trans (tailStep_folds (s := driving s .sTail h n p) rfl hn hread)
  rw [remainingDigest_tail _ _ p h hn]
  exact .later rfl hstep (completesIn_final hstuck hprog ..)

theorem completesIn_words {words : Nat} {h n : Word} {p : Nat} (hwords : n.toNat / 8 = words) (hn : n.toNat < 64)
    (hread : s.Readable p n.toNat) :
    CompletesIn s (remainingDigest s.cfg (byteAt s) p h n.toNat) (words + 3) (driving s .sWord h n p) := by
  induction words generalizing h n p with
  | zero =>
    have hlt : n.toNat < 8 := by omega
    have hstep : step (driving s .sWord h n p) = .next (driving s .sTail h n p) :=
      (step_driving hstuck hprog ..).trans (wordStep_leaves hlt)
    exact .later rfl hstep (completesIn_tail hstuck hprog hlt hread)
  | succ words ih =>
    have hge : 8 ≤ n.toNat := by omega
    have hsub : n.toNat = 8 + (n - 8).toNat := by bv_omega
    rw [hsub] at hread ⊢
    obtain ⟨hnow, hlater⟩ := forall_addr_add (P := (readableByte s · = true)).mp hread
    have hstep : step (driving s .sWord h n p) =
        .next (driving s .sWord (mixStream s.cfg h (readLe (byteAt s) p 8)) (n - 8) (p + 8)) :=
      (step_driving hstuck hprog ..).trans (wordStep_folds (s := driving s .sWord h n p) hge hnow)
    rw [remainingDigest_word _ _ p h (by omega)]
    exact .later rfl hstep (ih (by omega) (by omega) hlater)

theorem completesIn_blocks {blocks : Nat} {h n : Word} {p : Nat} (hblocks : n.toNat / 64 = blocks)
    (hread : s.Readable p n.toNat) :
    CompletesIn s (remainingDigest s.cfg (byteAt s) p h n.toNat) (blocks + (n.toNat % 64 / 8 + 4))
      (driving s .sBlock h n p) := by
  induction blocks generalizing h n p with
  | zero =>
    have hlt : n.toNat < 64 := by omega
    have hstep : step (driving s .sBlock h n p) = .next (driving s .sWord h n p) :=
      (step_driving hstuck hprog ..).trans (blockStep_leaves hlt)
    rw [Nat.zero_add, Nat.mod_eq_of_lt hlt]
    exact .later rfl hstep (completesIn_words hstuck hprog rfl hlt hread)
  | succ blocks ih =>
    have hge : 64 ≤ n.toNat := by omega
    have hsub : n.toNat = 64 + (n - 64).toNat := by bv_omega
    rw [hsub] at hread ⊢
    obtain ⟨hnow, hlater⟩ := forall_addr_add (P := (readableByte s · = true)).mp hread
    have hstep : step (driving s .sBlock h n p) =
        .next (driving s .sBlock (blockMix s.cfg (byteAt s) p h) (n - 64) (p + 64)) :=
      (step_driving hstuck hprog ..).trans (blockStep_consumes (s := driving s .sBlock h n p) hge hnow)
    rw [remainingDigest_block, Nat.add_mod_left, Nat.add_right_comm]
    exact .later rfl hstep (ih (by omega) hlater)

/-- After its issue a driver command ends with the reference digest in exactly the steps of R141. -/
theorem completesIn_driverSteps {base len : Word} (seed : Word) (hread : s.Readable base.toNat len.toNat) :
    CompletesIn s (axhashInternal s.cfg (byteAt s) base len seed) (driverSteps len.toNat)
      (startDriver base len seed s) := by
  have hsteps : driverSteps len.toNat = len.toNat / 64 + (len.toNat % 64 / 8 + 4) := by
    unfold driverSteps
    omega
  rw [hsteps, axhashInternal_eq]
  exact completesIn_blocks hstuck hprog rfl hread

end

/-- Settles O25: `HASHI` issues, and the driver runs to the reference digest. -/
theorem hashiReachesTheReferenceDigest : Obligations.HashiReachesTheReferenceDigest := by
  intro s base len seed hi hstuck hprog ha hb hc hread
  exact ⟨_, hashiInitialisesWithTheRawSeed s base len seed hi ha hb hc,
    completesIn_driverSteps hstuck hprog seed hread⟩

end Sys2Proof.Machine

/-! SUPPORT. Proofs of the statements about the entry points: the seed pre-mix and the command `PREMIX`, the seeds that
`HASH` and `HASHS` hand to the driver, and the digests they end with. -/

namespace Sys2Proof.Machine

/-! ### The seed pre-mix -/

theorem premix_eq : premix = xorRotl 29 47 := rfl

/-- Settles O40: `premix` is the map `1 + ρ^29 + ρ^47`, so each clause of R164 is a law of such maps. -/
theorem premixIsALinearBijection : Obligations.PremixIsALinearBijection := by
  unfold Obligations.PremixIsALinearBijection
  rw [premix_eq]
  exact ⟨xorRotl_bijective 29 47, xorRotl_zero_word 29 47, xorRotl_allOnes 29 47, fun _ => rfl, xorRotl_xor 29 47⟩

theorem singleResult_premix {s : State} {seed : Word} (ha : s.latches.get .opa = .known seed) :
    singleResult .premix s = .ok (premix seed) := by
  rw [singleResult, resultPremix, latched_some ha]
  rfl

/-- Settles O17: `OPA` is latched, and the `S_EXEC` step writes `premix` of the latch, which is R160's formula. -/
theorem premixMixesTheSeed : Obligations.PremixMixesTheSeed := by
  intro s seed hi ha
  have hlatch : latchOperands s (operandsRead .premix) s.latches = .ok (s.latches.set .opa seed) := by
    rw [operandsRead, latchOperands_cons_known (r := .opa) ha, latchOperands]
  exact ⟨_, exec_single rfl hi hlatch, rfl, seqStep_completes rfl rfl (singleResult_premix rfl)⟩

/-! ### The entry points of the driver -/

section
variable {s : State} {base len : Word} (hi : s.Issuable) (ha : s.ops.a = .known base) (hb : s.ops.b = .known len)
include hi ha hb

/-- `HASH` reads no `OPC`, so its start is the same whatever word stands for one. -/
theorem exec_hash : exec .hash s = .next (startDriver base len Config.kSeed s) :=
  exec_driver (opc := 0) rfl hi ha hb (by simp [operandsRead])

theorem exec_hashs {seed : Word} (hc : s.ops.c = .known seed) :
    exec .hashs s = .next (startDriver base len (premix seed) s) :=
  exec_driver rfl hi ha hb fun _ => hc

end

/-- Settles O20: both are a driver's start, `HASH` with `K_SEED` itself and `HASHS` with the pre-mixed `OPC`. -/
theorem hashAndHashsInitialiseWithTheirSeeds : Obligations.HashAndHashsInitialiseWithTheirSeeds :=
  fun _ _ _ hi ha hb => ⟨exec_hash hi ha hb, fun _ hc => exec_hashs hi ha hb hc⟩

/-- Settles O26: whichever seed the command passes on, the driver runs to the reference digest under it. -/
theorem hashAndHashsReachTheReferenceDigest : Obligations.HashAndHashsReachTheReferenceDigest := by
  intro s base len hi hstuck hprog ha hb hread
  have hends (seed : Word) := (completesIn_driverSteps hstuck hprog seed hread).2
  exact ⟨⟨_, exec_hash hi ha hb, hends Config.kSeed⟩,
    fun seed hc => ⟨_, exec_hashs hi ha hb hc, hends (premix seed)⟩⟩

end Sys2Proof.Machine

/-! SUPPORT. Proof of the statement on two issues of one command: the two runs go through the same phases side by side, and
the block never looks at where the two states differ. -/

namespace Sys2Proof.Machine

/-! ### What reads and results depend on -/

section
variable {s t : State} (hcfg : t.cfg = s.cfg) (hreadable : t.readable = s.readable)
include hcfg hreadable

theorem checkedRead_congr (a n : Nat) (v : Word) : checkedRead t a n v = checkedRead s a n v := by
  rw [checkedRead, checkedRead, firstUnreadable_congr hcfg hreadable]

variable (hmem : t.mem = s.mem)
include hmem

theorem memRead_congr (a n : Nat) : memRead t a n = memRead s a n := by
  rw [memRead, memRead, byteAt_congr hmem, checkedRead_congr hcfg hreadable]

/-- A reader's result depends on base and offset, `ADDR_W` and the buffer (R92). -/
theorem readerResult_congr (ha : latched t .opa = latched s .opa) (hb : latched t .opb = latched s .opb) (n : Nat) :
    readerResult n t = readerResult n s := by
  simp only [readerResult, ha, hb, memRead_congr hcfg hreadable hmem]

/-- A single-step command's result depends on the latches it reads, the constants and the buffer (R67). -/
theorem singleResult_congr {i : Instr} (hlatches : ∀ r ∈ operandsRead i, t.latches.get r = s.latches.get r) :
    singleResult i t = singleResult i s := by
  have hlatched : ∀ r ∈ operandsRead i, latched t r = latched s r := fun r hr => by
    rw [latched, latched, hlatches r hr]
  cases i <;> simp only [operandsRead, List.forall_mem_cons] at hlatched
  case hashi | hash | hashs => rfl
  case rotl => simp only [singleResult, resultRotl, hlatched]
  case mix => simp only [singleResult, resultMix, hlatched, hcfg]
  case mixs => simp only [singleResult, resultMixs, hlatched, hcfg]
  case mixb => simp only [singleResult, resultMixb, hlatched, hcfg]
  case premix => simp only [singleResult, resultPremix, hlatched]
  case rd8 | rd16 | rd32 | rd64 => exact readerResult_congr hcfg hreadable hmem hlatched.1 hlatched.2.1 _

end

/-- In `DONE` a block whose host has nothing left waits for ever (R184). -/
theorem step_done {s : State} (hdone : s.stage = .done) (hprog : s.program = []) : step s = .next s := by
  cases hstuck : stuck s with
  | true => exact step_stuck hstuck
  | false => rw [step_sequencer hstuck hprog, seqStep, hdone]

/-! ### Two runs side by side -/

/-- Two blocks with no host operation left and the same constants, buffer, `R_READABLE` and `FLOG`. -/
structure SameSurroundings (s s' : State) : Prop where
  left_program : s.program = []
  right_program : s'.program = []
  flog : s'.flog = s.flog
  cfg : s'.cfg = s.cfg
  mem : s'.mem = s.mem
  readable : s'.readable = s.readable

/-- The two runs of one command, issued in `s` and in `s'`, are in the same phase: a driver stage with the same `H`, `N`
and `P`, or `S_EXEC` with the same operands latched, or the end, after which nothing changes. -/
inductive RunAlike (s s' : State) : State → State → Prop where
  | driver {g : Stage} (hg : g.driver = true) (h n : Word) (p : Nat) :
      RunAlike s s' (driving s g h n p) (driving s' g h n p)
  | single {i : Instr} {f f' : OperandFile} (hlatches : ∀ r ∈ operandsRead i, f'.get r = f.get r) :
      RunAlike s s' (startSingle i f s) (startSingle i f' s')
  | ended {u u' : State} (hstage : u'.stage = u.stage) (hy : u'.y = u.y) (hstay : step u = .next u)
      (hstay' : step u' = .next u') : RunAlike s s' u u'

/-- When the first of two answers is a next state, so is the second, and the two runs are in the same phase there. -/
def AnswerAlike (s s' : State) (o o' : Out) : Prop :=
  ∀ v, o = .next v → ∃ v', o' = .next v' ∧ RunAlike s s' v v'

theorem RunAlike.answer {s s' v v' : State} (h : RunAlike s s' v v') : AnswerAlike s s' (.next v) (.next v') := by
  rintro _ ⟨⟩
  exact ⟨v', rfl, h⟩

/-- A first answer that stops the machine asks nothing of the second. -/
theorem AnswerAlike.fault {s s' : State} (r : Fault) (o : Out) : AnswerAlike s s' (.fault r) o := by
  intro v hv
  cases hv

/-- In every phase the two runs show the same `STAGE` and the same `Y`. -/
theorem RunAlike.stage_y {s s' u u' : State} (h : RunAlike s s' u u') : u'.stage = u.stage ∧ u'.y = u.y := by
  cases h with
  | driver => exact ⟨rfl, rfl⟩
  | single => exact ⟨rfl, rfl⟩
  | ended hstage hy => exact ⟨hstage, hy⟩

/-- An overread of the same address ends both runs (R173). -/
theorem RunAlike.overread {s s' u u' : State} (h : RunAlike s s' u u') (a : Nat) :
    RunAlike s s' (recordFault (.bufferOverread a) u) (recordFault (.bufferOverread a) u') :=
  .ended h.stage_y.1 h.stage_y.2 (step_recordFault rfl u) (step_recordFault rfl u')

/-- After the same read both runs go on, or both record the overread. -/
theorem RunAlike.read {s s' u u' : State} {next next' : Word → State} {e e' : Except Nat Word}
    (h : RunAlike s s' u u') (he : e' = e) (hnext : ∀ x, RunAlike s s' (next x) (next' x)) :
    RunAlike s s' (readOrRecord u next e) (readOrRecord u' next' e') := by
  rw [he]
  cases e with
  | ok x => exact hnext x
  | error a => exact h.overread a

section
variable {s s' : State} (hsame : SameSurroundings s s')
include hsame

/-- Completion with the same result ends both runs. -/
theorem SameSurroundings.completed {u u' : State} (hdone : u.stage = .done) (hdone' : u'.stage = .done)
    (hy : u'.y = u.y) (hprog : u.program = s.program) (hprog' : u'.program = s'.program) : RunAlike s s' u u' :=
  .ended (hdone'.trans hdone.symm) hy (step_done hdone (hprog.trans hsame.left_program))
    (step_done hdone' (hprog'.trans hsame.right_program))

theorem execStep_alike {i : Instr} {f f' : OperandFile} (hlatches : ∀ r ∈ operandsRead i, f'.get r = f.get r) :
    AnswerAlike s s' (execStep (startSingle i f s)) (execStep (startSingle i f' s')) := by
  have hresult : singleResult i (startSingle i f' s') = singleResult i (startSingle i f s) :=
    singleResult_congr (s := startSingle i f s) (t := startSingle i f' s') hsame.cfg hsame.readable hsame.mem hlatches
  simp only [execStep, startSingle_running, hresult]
  rcases singleResult i (startSingle i f s) with (a | _) | v
  · exact RunAlike.answer (.overread (.single hlatches) a)
  · exact .fault _ _
  · exact RunAlike.answer (hsame.completed rfl rfl rfl rfl rfl)

/-- A driver command changes nothing of its block's surroundings. -/
theorem SameSurroundings.driving (g : Stage) (h n : Word) (p : Nat) :
    SameSurroundings (driving s g h n p) (driving s' g h n p) :=
  { hsame with }

variable (h n : Word) (p : Nat)

theorem blockStep_alike :
    AnswerAlike s s' (blockStep h n p (driving s .sBlock h n p)) (blockStep h n p (driving s' .sBlock h n p)) := by
  have hnow := hsame.driving .sBlock h n p
  unfold blockStep
  split
  · refine RunAlike.answer (.read (.driver rfl h n p) ?_ fun x => .driver (g := .sBlock) rfl x (n - 64) (p + 64))
    rw [hnow.cfg, byteAt_congr hnow.mem, checkedRead_congr hnow.cfg hnow.readable]
  · exact RunAlike.answer (.driver (g := .sWord) rfl h n p)

theorem wordStep_alike :
    AnswerAlike s s' (wordStep h n p (driving s .sWord h n p)) (wordStep h n p (driving s' .sWord h n p)) := by
  have hnow := hsame.driving .sWord h n p
  have hmix := congrArg mixStream hnow.cfg
  unfold wordStep
  split
  · refine RunAlike.answer (.read (.driver rfl h n p) (memRead_congr hnow.cfg hnow.readable hnow.mem p 8) fun x => ?_)
    rw [hmix]
    exact .driver (g := .sWord) rfl (mixStream s.cfg h x) (n - 8) (p + 8)
  · exact RunAlike.answer (.driver (g := .sTail) rfl h n p)

theorem tailStep_alike :
    AnswerAlike s s' (tailStep h n p (driving s .sTail h n p)) (tailStep h n p (driving s' .sTail h n p)) := by
  have hnow := hsame.driving .sTail h n p
  have hmix := congrArg mixStream hnow.cfg
  unfold tailStep
  split
  · exact RunAlike.answer (.driver (g := .sFinal) rfl h 0 p)
  · split
    · refine RunAlike.answer (.read (.driver rfl h n p) ?_ fun x => ?_)
      · rw [byteAt_congr hnow.mem, checkedRead_congr hnow.cfg hnow.readable]
      · rw [hmix]
        exact .driver (g := .sFinal) rfl (mixStream s.cfg h x) 0 p
    · exact .fault _ _

theorem finalStep_alike :
    AnswerAlike s s' (finalStep h n p (driving s .sFinal h n p)) (finalStep h n p (driving s' .sFinal h n p)) :=
  RunAlike.answer (hsame.completed rfl rfl (congrArg (Held.known <| mix · h) hsame.cfg) rfl rfl)

theorem SameSurroundings.stuck_eq : stuck s' = stuck s := by
  rw [stuck, stuck, hsame.flog]

/-- Two runs in the same phase stay in the same phase over a step. -/
theorem RunAlike.step {u u' : State} (hrun : RunAlike s s' u u') : AnswerAlike s s' (step u) (step u') := by
  cases hstuck : stuck s with
  | true =>
    have hstuck' : stuck s' = true := hsame.stuck_eq.trans hstuck
    have hstay : Machine.step u = .next u ∧ Machine.step u' = .next u' := by
      cases hrun with
      | driver | single => exact ⟨step_stuck hstuck, step_stuck hstuck'⟩
      | ended _ _ hstay hstay' => exact ⟨hstay, hstay'⟩
    rw [hstay.1, hstay.2]
    exact hrun.answer
  | false =>
    have hstuck' : stuck s' = false := hsame.stuck_eq.trans hstuck
    cases hrun with
    | @driver g hg h n p =>
      rw [step_driving hstuck hsame.left_program, step_driving hstuck' hsame.right_program]
      cases g with
      | sBlock => exact blockStep_alike hsame h n p
      | sWord => exact wordStep_alike hsame h n p
      | sTail => exact tailStep_alike hsame h n p
      | sFinal => exact finalStep_alike hsame h n p
      | idle | sExec | done | fault => cases hg
    | @single i f f' hlatches =>
      rw [step_sequencer (s := startSingle i f s) hstuck hsame.left_program,
        step_sequencer (s := startSingle i f' s') hstuck' hsame.right_program]
      exact execStep_alike hsame hlatches
    | ended hstage hy hstay hstay' =>
      rw [hstay, hstay']
      exact (RunAlike.ended hstage hy hstay hstay').answer

/-- Two runs in the same phase stay in the same phase over any number of steps. -/
theorem RunAlike.run {k : Nat} {u u' : State} (hrun : RunAlike s s' u u') :
    AnswerAlike s s' (run k u) (run k u') := by
  induction k generalizing u u' with
  | zero => exact hrun.answer
  | succ k ih =>
    intro v hv
    obtain ⟨w, hw, hv⟩ := run_succ_inv hv
    obtain ⟨w', hw', halike⟩ := hrun.step hsame w hw
    rw [run_step hw']
    exact ih halike v hv

end

/-! ### Two issues of one command -/

/-- Every driver command reads `OPA` and `OPB` (R62). -/
theorem opa_opb_mem_operandsRead {i : Instr} (hd : Instr.isDriver i = true) :
    .opa ∈ operandsRead i ∧ .opb ∈ operandsRead i := by
  cases i
  case hashi | hash | hashs => simp [operandsRead]
  all_goals cases hd

/-- Two issues of one command that find the same operand values start in the same phase. -/
theorem exec_alike {i : Instr} {s s' : State} (hi : s.Issuable) (hi' : s'.Issuable)
    (hops : ∀ r ∈ operandsRead i, (s.ops.get r).isKnown = true ∧ s.ops.get r = s'.ops.get r) :
    ∃ t t', exec i s = .next t ∧ exec i s' = .next t' ∧ RunAlike s s' t t' := by
  cases hd : Instr.isDriver i with
  | true =>
    have hvalue (r : OpReg) : ∃ v, r ∈ operandsRead i → s.ops.get r = .known v ∧ s'.ops.get r = .known v := by
      by_cases hr : r ∈ operandsRead i
      · obtain ⟨hknown, heq⟩ := hops r hr
        obtain ⟨v, hv⟩ := Held.isKnown_iff.mp hknown
        exact ⟨v, fun _ => ⟨hv, heq ▸ hv⟩⟩
      · exact ⟨0, fun hr' => absurd hr' hr⟩
    obtain ⟨hopa, hopb⟩ := opa_opb_mem_operandsRead hd
    obtain ⟨base, hbase⟩ := hvalue .opa
    obtain ⟨len, hlen⟩ := hvalue .opb
    obtain ⟨opc, hopc⟩ := hvalue .opc
    obtain ⟨ha, ha'⟩ := hbase hopa
    obtain ⟨hb, hb'⟩ := hlen hopb
    exact ⟨_, _, exec_driver hd hi ha hb fun hr => (hopc hr).1, exec_driver hd hi' ha' hb' fun hr => (hopc hr).2,
      .driver (g := .sBlock) rfl (len ^^^ driverSeed i opc) len base.toNat⟩
  | false =>
    have hknown' : ∀ r ∈ operandsRead i, (s'.ops.get r).isKnown = true := fun r hr => by
      rw [← (hops r hr).2]
      exact (hops r hr).1
    obtain ⟨f, hf⟩ := latchOperands_total s.latches fun r hr => (hops r hr).1
    obtain ⟨f', hf'⟩ := latchOperands_total s'.latches hknown'
    refine ⟨_, _, exec_single hd hi hf, exec_single hd hi' hf', .single fun r hr => ?_⟩
    rw [((latchOperands_ok hf).1 r hr).2, ((latchOperands_ok hf').1 r hr).2, (hops r hr).2]

/-- Settles O30: the two issues start in the same phase, the runs stay there, and a phase shows one `STAGE` and one `Y`. -/
theorem sameInputsGiveTheSameResult : Obligations.SameInputsGiveTheSameResult := by
  intro i s s' t t' u k hi hi' hprog hprog' hflog hcfg hmem hreadable hops ht ht' hu
  have hsame : SameSurroundings s s' := ⟨hprog, hprog', hflog.symm, hcfg.symm, hmem.symm, hreadable.symm⟩
  obtain ⟨v, v', hv, hv', hstart⟩ := exec_alike hi hi' hops
  obtain rfl := Host.Outcome.next.inj (ht.symm.trans hv)
  obtain rfl := Host.Outcome.next.inj (ht'.symm.trans hv')
  obtain ⟨u', hu', halike⟩ := hstart.run hsame u hu
  exact ⟨u', hu', halike.stage_y⟩

end Sys2Proof.Machine

/-! SUPPORT. Proofs of the statements about what stops the block: `FAULT`, which only reset leaves, and the model faults
after which no step changes anything. -/

namespace Sys2Proof.Machine

/-- In `FAULT` the sequencer waits (R172, R184). -/
theorem seqStep_fault {s t : State} (hfault : s.stage = .fault) (h : seqStep s = .next t) : t = s := by
  rw [seqStep, hfault] at h
  exact (Host.Outcome.next.inj h).symm

/-- In `FAULT` a host operation other than reset keeps `FAULT`, its cause and `Y` (R175). -/
theorem hostStep_fault {op : HostOp} {s t : State} (hfault : s.stage = .fault) (hop : op ≠ .reset)
    (h : hostStep op s = .next t) : t.stage = .fault ∧ t.fcause = s.fcause ∧ t.y = s.y := by
  rcases hostStep_cases h with ⟨w, _, h⟩ | ⟨_, _, _, rfl⟩ | ⟨_, _, rfl, _, _⟩ | ⟨_, hbusy, _⟩ | ⟨_, _, _, rfl⟩ |
    ⟨hreset, _⟩ | ⟨_, _, rfl⟩ | ⟨_, h⟩
  case inl =>
    obtain rfl := Host.Outcome.next.inj ((issueWord_fault hfault w).symm.trans h)
    exact ⟨hfault, rfl, rfl⟩
  case inr.inr.inr.inl =>
    rw [hfault] at hbusy
    cases hbusy
  case inr.inr.inr.inr.inr.inl => exact absurd hreset hop
  case inr.inr.inr.inr.inr.inr.inr =>
    obtain rfl := seqStep_fault hfault h
    exact ⟨hfault, rfl, rfl⟩
  all_goals exact ⟨hfault, rfl, rfl⟩

/-- Settles O53: in `FAULT` a `CMD` write has no effect, the sequencer waits, and no other host operation but reset writes
`STAGE`, the cause or `Y`. -/
theorem onlyResetLeavesFault : Obligations.OnlyResetLeavesFault := by
  intro s t hfault h hreset
  rcases step_cases h with ⟨_, rfl⟩ | ⟨_, h⟩ | ⟨op, rest, hprog, h⟩
  · exact ⟨hfault, rfl, rfl⟩
  · obtain rfl := seqStep_fault hfault h
    exact ⟨hfault, rfl, rfl⟩
  · have hop : op ≠ .reset := fun hop => hreset rest (hop ▸ hprog)
    exact (hostStep_fault (s := { s with program := rest }) hfault hop h :)

/-- Settles O51: either fault stops the block, and a block that is stuck stays as it is. -/
theorem stuckInstanceTakesNoStep : Obligations.StuckInstanceTakesNoStep := by
  intro s f hf hkind
  have hsticks : f.sticks = true := by rcases hkind with ⟨_, rfl⟩ | ⟨_, rfl⟩ <;> rfl
  have hstuck : stuck s = true := (stuck_iff s).mpr ⟨f, hf, hsticks⟩
  exact ⟨step_stuck hstuck, run_stuck hstuck⟩

end Sys2Proof.Machine

/-! SUPPORT. Proofs of the statements about reset and hazards: a `CMD` write during a command, the host's reads of registers
without a value, and the reset event. -/

namespace Sys2Proof.Machine

/-! ### A `CMD` write during a command -/

/-- While a command runs every word, legal or not, raises `BUSY_ISSUE` (R174, R194). -/
theorem issueWord_busy {s : State} (h : busy s = true) (w : Word) :
    issueWord w s = .next (raiseFault .busyIssue s) := by
  obtain ⟨accept, hgate⟩ := issueWord_gate w s
  rw [hgate, issueGate_busy h]

/-- Settles O8: the first checks of a `CMD` write end it in `BUSY_ISSUE`, before the word is looked at. -/
theorem anyCommandWriteWhileBusyRaisesBusyIssue : Obligations.AnyCommandWriteWhileBusyRaisesBusyIssue := by
  intro s w rest hstuck hbusy hprog
  refine ⟨_, (step_issueWord hstuck hprog).trans (issueWord_busy ?_ w), rfl⟩
  exact hbusy

/-! ### Host reads of registers without a value -/

/-- A host read of an operand register without a value returns none and is recorded (R191). -/
theorem readOperand_noValue {s : State} {r : OpReg} (h : (s.ops.get r).isKnown = false) :
    readOperand r s = recordFault (.unwrittenOperand r) (noteRead (.operand r) none s) := by
  obtain ⟨bits, hbits⟩ := Held.isKnown_eq_false_iff.mp h
  rw [readOperand, hbits]
  rfl

/-- Settles O44: the read ends in the record of `UnwrittenOperand`, which stops the block. -/
theorem unwrittenOperandReadIsRecorded : Obligations.UnwrittenOperandReadIsRecorded := by
  intro s r rest hstuck hr hprog
  let t : State := { s with program := rest }
  have hread : step s = .next (readOperand r t) := step_host hstuck hprog
  rw [readOperand_noValue (s := t) hr] at hread
  exact ⟨_, hread, rfl, mem_flogAdd s.flog _, step_recordFault rfl _⟩

/-- A host read of `Y` while `DONE = 1` returns the result (R193). -/
theorem readResult_done {s : State} (h : s.stage = .done) : readResult s = noteRead .y s.y.toOption s :=
  if_pos ((done_iff s).mpr h)

/-- A host read of `Y` while `DONE = 0` returns no value and is recorded (R193, R191). -/
theorem readResult_not_done {s : State} (h : s.stage ≠ .done) :
    readResult s = recordFault .resultNotValid (noteRead .y none s) :=
  if_neg (mt (done_iff s).mp h)

/-- Settles O46: the read looks at `DONE` alone, and `ResultNotValid` does not stop the block. -/
theorem resultIsReadOnlyWhileDone : Obligations.ResultIsReadOnlyWhileDone := by
  intro s rest hstuck hprog
  let t : State := { s with program := rest }
  have hread : step s = .next (readResult t) := step_host hstuck hprog
  constructor
  · intro hdone
    exact hread.trans (congrArg Host.Outcome.next (readResult_done (s := t) hdone))
  · intro hdone
    rw [readResult_not_done (s := t) hdone] at hread
    refine ⟨_, hread, rfl, mem_flogAdd s.flog _, ?_⟩
    rw [stuck_recordFault]
    exact Bool.or_eq_false_iff.mpr ⟨hstuck, rfl⟩

/-! ### The reset event -/

/-- Settles O49: the step is `applyReset` of the state with the operation taken off its program, whatever the stage. -/
theorem resetEventClearsEveryRegister : Obligations.ResetEventClearsEveryRegister := by
  intro s rest hstuck hprog
  have hreset : step s = .next (applyReset { s with program := rest }) := step_host hstuck hprog
  exact ⟨_, hreset, rfl⟩

end Sys2Proof.Machine
